-- ==== Sys2Proof/Word.lean ====
section
/-! DEFINITION. The word types of the machine: the byte of a register or memory cell, and the program counter. -/

namespace Sys2Proof

/-- An unsigned 8-bit value: a register, a memory cell, an opcode or an operand byte (rules R7, R13, R27, R52). -/
abbrev Byte := BitVec 8

/-- The program counter is 9 bits wide, so that a sequential advance past address 255 can be held (rule R18). -/
abbrev PcWord := BitVec 9

end Sys2Proof
end

