-- ==== Sys2Proof/Config.lean ====
section
/-! DEFINITION. The parameters of rule R7, and the reset values that the spec leaves open. -/

namespace Sys2Proof.Config

/-- `MEM_SIZE` (rule R7): 256 byte cells, addresses 0..255. -/
def memSize : Nat := 256

/-- `NUM_REGS` (rule R7): R0..R7. -/
def numRegs : Nat := 8

/-- `SP_INDEX` (rules R7, R15): the stack pointer is R7. -/
def spIndex : Byte := 7

/-- `SP_INIT` (rules R7, R17) is OPEN: `State.resetWith` takes it as an argument. PRESUMED (log entry 1): the one state
`State.reset` of the host's interface uses the family's 0xF4, which rule R17 names as general knowledge. -/
def spInit : Byte := 0xF4

/-- `FLAGS_CLEAR_ON_CMP` (rule R7): `true` is the spec's value; `compareFlags` models both values (rule R84). -/
def flagsClearOnCmp : Bool := true

/-- PRESUMED (log entry 1): what R0..R6 hold in `State.reset`. Rule R31 states no value (`⊥`). -/
def resetReg : Byte := 0

/-- PRESUMED (log entry 1): what E, L and G hold in `State.reset`. Rule R31 states no value (`⊥`). -/
def resetFlag : Bool := false

end Sys2Proof.Config
end

