-- ==== Sys2Proof/Machine/State.lean ====
section
/-! DEFINITION. The state of the block (10_state.md), the reasons a step stops, and the states at reset. -/

namespace Sys2Proof.Machine

/-- The three flags (rule R21). -/
inductive FlagName where
  | E
  | L
  | G
  deriving DecidableEq, Repr

/-- The flag register: three booleans, each of which may be the spec's own `⊥`, here `none` (rules R21, R23, R28). -/
structure Flags where
  E : Option Bool
  L : Option Bool
  G : Option Bool
  deriving DecidableEq, Repr

/-- The operation names the ALU can be given: its own three, and any other (rules R79, R101). -/
inductive AluOp where
  | add
  | mul
  | cmp
  | unrecognised (name : String)
  deriving DecidableEq, Repr

/-- Where a read met `⊥` (rule R99, code 5). -/
inductive Location where
  | register (i : Byte)
  | flag (f : FlagName)
  | memory (addr : Nat)
  deriving DecidableEq, Repr

/-- The five faults of the block, each with the information it records (rule R99). A fault is taken as a next state
whose status is `faulted` (rule R107). -/
inductive FaultCause where
  /-- Code 1: the opcode byte is not in the table (rule R100). -/
  | unknownOpcode (op : Byte)
  /-- Code 2: the ALU was given an unrecognised operation; no program raises it (rules R80, R101). -/
  | unsupportedALUOperation (op : AluOp)
  /-- Code 3: an access or stack-pointer move outside 0..255; the value may be -1 or 256..258 (rule R102). -/
  | addressOutOfRange (addr : Int)
  /-- Code 4: a register operand of 8 or more (rule R103). -/
  | registerIndexOutOfRange (index : Byte)
  /-- Code 5: a read of `⊥` (rule R104). -/
  | undefinedValue (loc : Location)
  deriving DecidableEq, Repr

/-- The fault record: the fault's kind with its information, and the PC of the faulting instruction (rule R26). Its
code is `FaultCause.code` of the cause. -/
structure FaultRecord where
  cause : FaultCause
  pc : PcWord
  deriving DecidableEq, Repr

/-- The run status (rule R25). -/
inductive Status where
  | running
  | halted
  | faulted (record : FaultRecord)
  deriving DecidableEq, Repr

/-- The memory array: the written cells as (address, byte) pairs. An address that is not listed holds `⊥`
(rules R27, R28, R31). -/
abbrev Memory := List Host.Cell

/-- The canonical form: addresses strictly rising, all of them 0..255. An unlisted address holds `⊥`, which no entry
equals. -/
abbrev Memory.wf (m : Memory) : Prop :=
  m.Pairwise (fun c d => c.1 < d.1) ∧ ∀ c ∈ m, c.1 < Config.memSize

/-- All the state the spec gives the block (rules R13..R31). -/
structure State where
  /-- R0..R7; `none` is the spec's own `⊥`, which no instruction writes (rules R13, R28). -/
  regs : Vector (Option Byte) 8
  /-- E, L, G (rule R21). -/
  flags : Flags
  /-- The address of the opcode byte of the instruction about to execute (rule R18). -/
  pc : PcWord
  /-- The run status, with the fault record in it (rules R25, R26). -/
  status : Status
  /-- 256 cells of code, data and stack (rule R27). -/
  mem : Memory
  /-- The output stream, oldest first (rule R29). -/
  output : List Byte
  deriving DecidableEq, Repr

/-- Why a step cannot be taken: the spec's two terminal statuses, in which "it has no step" (rule R62). -/
inductive Fault where
  /-- Raised by `step` alone, in status `Halted`: the run is over (rule R74). Safe: nothing executes. -/
  | halted
  /-- Raised by `step` alone, in status `Faulted`: the run is over (rule R75). Safe: nothing executes. -/
  | faulted (record : FaultRecord)
  deriving DecidableEq, Repr

/-- An instruction without a meaning. No arm of `exec` answers it: every instruction has its meaning. -/
inductive Refusal where
  /-- Raised by an arm of `exec` for an instruction that is not modelled. Safe: nothing executes. -/
  | notModelled (mnemonic : String)
  deriving DecidableEq, Repr

/-- The reset state letter for letter as rule R31 has it, before the host loads a program: R7 is `SP_INIT`, the OPEN
parameter, and every other register, every flag and every cell is `⊥`. -/
def State.resetUndefined (spInit : Byte) : State where
  regs := #v[none, none, none, none, none, none, none, some spInit]
  flags := { E := none, L := none, G := none }
  pc := 0
  status := .running
  mem := []
  output := []

/-- The reset state with the values the model names where rule R31 states none for a register or a flag
(PRESUMED, log entry 1). Memory stays `⊥`. -/
def State.resetWith (spInit : Byte) : State :=
  { State.resetUndefined spInit with
    regs := (Vector.replicate 7 (some Config.resetReg)).push (some spInit)
    flags := { E := some Config.resetFlag, L := some Config.resetFlag, G := some Config.resetFlag } }

/-- The machine right after reset, for the host's interface, in which every register holds a value (log entry 1). -/
def State.reset : State := State.resetWith Config.spInit

end Sys2Proof.Machine
end

