-- ==== Sys2Proof/Machine/Flags.lean ====
section
/-! DEFINITION. The one flag computation: CMP's, for both values of `FLAGS_CLEAR_ON_CMP` (rule R84). -/

namespace Sys2Proof.Machine

/-- The reference behaviour for one flag: set when its condition holds, else kept, `⊥` included (rule R84). -/
def stickyFlag (old : Option Bool) (cond : Bool) : Option Bool := if cond then some true else old

/-- The flags after comparing `va` with `vb` as unsigned numbers (rules R81, R84). `clear` is `FLAGS_CLEAR_ON_CMP`. -/
def compareFlags (clear : Bool) (old : Flags) (va vb : Byte) : Flags :=
  if clear then
    { E := some (va.toNat == vb.toNat)
      L := some (decide (va.toNat < vb.toNat))
      G := some (decide (va.toNat > vb.toNat)) }
  else
    { E := stickyFlag old.E (va.toNat == vb.toNat)
      L := stickyFlag old.L (decide (va.toNat < vb.toNat))
      G := stickyFlag old.G (decide (va.toNat > vb.toNat)) }

end Sys2Proof.Machine
end

