-- ==== Sys2Proof/Syntax.lean ====
section
/-! DEFINITION. The 13 instructions of rule R54 as syntax, their operation names and the four formats of rule R51. -/

namespace Sys2Proof

/-- The formats of rule R51: no operand, one register, two registers, a register and an immediate. -/
inductive Format where
  | Z
  | R
  | RR
  | RI
  deriving DecidableEq, Repr

/-- The 13 operations, in the order of the opcode table (rule R54). -/
inductive Op where
  | halt
  | ret
  | push
  | pop
  | prn
  | call
  | jmp
  | jeq
  | jne
  | ldi
  | add
  | mul
  | cmp
  deriving DecidableEq, Repr

/-- One constructor per row of `opcode_table.json`. A register operand is the whole operand byte (rule R52);
`Instr.wf` says when it names a register. -/
inductive Instr where
  | halt
  | ret
  | push (a : Byte)
  | pop (a : Byte)
  | prn (a : Byte)
  | call (a : Byte)
  | jmp (a : Byte)
  | jeq (a : Byte)
  | jne (a : Byte)
  | ldi (a imm : Byte)
  | add (a b : Byte)
  | mul (a b : Byte)
  | cmp (a b : Byte)
  deriving DecidableEq, Repr

/-- The operation an instruction performs. -/
def Instr.op : Instr → Op
  | .halt => .halt
  | .ret => .ret
  | .push _ => .push
  | .pop _ => .pop
  | .prn _ => .prn
  | .call _ => .call
  | .jmp _ => .jmp
  | .jeq _ => .jeq
  | .jne _ => .jne
  | .ldi _ _ => .ldi
  | .add _ _ => .add
  | .mul _ _ => .mul
  | .cmp _ _ => .cmp

end Sys2Proof
end

