-- ==== Sys2Proof/WellFormed.lean ====
section
/-! DEFINITION. Which instruction terms the hardware has: every register operand is an index 0..7 (rules R52, R57). -/

namespace Sys2Proof

/-- An operand byte names a register exactly when it is 0..7 (rule R52). -/
def isRegIndex (r : Byte) : Bool := r.toNat < Config.numRegs

/-- The operand bytes that the format names as register indices, in the order the decoder checks them (rule R66).
LDI's immediate takes any value (rule R57). -/
def Instr.regOperands : Instr → List Byte
  | .halt => []
  | .ret => []
  | .push a => [a]
  | .pop a => [a]
  | .prn a => [a]
  | .call a => [a]
  | .jmp a => [a]
  | .jeq a => [a]
  | .jne a => [a]
  | .ldi a _ => [a]
  | .add a b => [a, b]
  | .mul a b => [a, b]
  | .cmp a b => [a, b]

/-- Well-formed: every register operand is 0..7. -/
def Instr.wf (i : Instr) : Bool := i.regOperands.all isRegIndex

end Sys2Proof
end

