-- ==== Sys2Proof/Machine/Operands.lean ====
section
/-! DEFINITION. Register and flag access: the one place where registers and flags are read and written (rule R10). -/

namespace Sys2Proof.Machine

/-- What register `i` holds, `⊥` as `none`; there is no register 8 or above. -/
def State.reg (s : State) (i : Byte) : Option Byte :=
  if h : i.toNat < 8 then s.regs[i.toNat] else none

/-- Register `i` set to the defined value `v` (rule R28: every write stores a defined value). -/
def State.setReg (s : State) (i v : Byte) : State :=
  if h : i.toNat < 8 then { s with regs := s.regs.set i.toNat (some v) } else s

/-- `x[i]` as rule R10 reads it: the index, then `⊥`, is checked. -/
def readReg (s : State) (i : Byte) : Except FaultCause Byte :=
  if isRegIndex i then
    match s.reg i with
    | none => .error (.undefinedValue (.register i))
    | some v => .ok v
  else .error (.registerIndexOutOfRange i)

/-- `x[i] <- v` (rule R10). DEDUCED (log entry 5): a write checks its index as a read does; the decoder has checked it
before (rule R66), so no run meets this check. -/
def writeReg (s : State) (i v : Byte) : Except FaultCause State :=
  if isRegIndex i then .ok (s.setReg i v) else .error (.registerIndexOutOfRange i)

/-- What a flag holds, `⊥` as `none`. -/
def Flags.get (f : Flags) : FlagName → Option Bool
  | .E => f.E
  | .L => f.L
  | .G => f.G

/-- A flag as rule R10 reads it. -/
def readFlag (s : State) (f : FlagName) : Except FaultCause Bool :=
  match s.flags.get f with
  | none => .error (.undefinedValue (.flag f))
  | some b => .ok b

end Sys2Proof.Machine
end

