-- ==== Sys2Proof/Machine/Ops.lean ====
section
/-! DEFINITION. The shared operations: memory, program counter, output, stack pointer, taking a fault, host load. -/

namespace Sys2Proof.Machine

/-! ### Memory (20_memory.md) -/

/-- What the cell at `a` holds, `⊥` as `none`. -/
def Memory.read : Memory → Nat → Option Byte
  | [], _ => none
  | (b, w) :: m, a => if a = b then some w else Memory.read m a

/-- The array with `v` in the cell at `a`; no other cell changes (rule R33). Keeps the canonical form. -/
def Memory.write : Memory → Nat → Byte → Memory
  | [], a, v => [(a, v)]
  | (b, w) :: m, a, v =>
    if a < b then (a, v) :: (b, w) :: m
    else if a = b then (a, v) :: m
    else (b, w) :: Memory.write m a v

/-- Whether an unbounded integer is an address of the array (rules R11, R38). -/
def isAddress (a : Int) : Bool := decide (0 ≤ a) && decide (a < Config.memSize)

/-- `MemRead(a, 1)`: the range, then `⊥`, is checked; an address never wraps (rules R10, R38). -/
def readMem (s : State) (a : Int) : Except FaultCause Byte :=
  if isAddress a then
    match s.mem.read a.toNat with
    | none => .error (.undefinedValue (.memory a.toNat))
    | some v => .ok v
  else .error (.addressOutOfRange a)

/-- `MemWrite(a, 1, v)` (rules R10, R38). -/
def writeMem (s : State) (a : Int) (v : Byte) : Except FaultCause State :=
  if isAddress a then .ok { s with mem := s.mem.write a.toNat v } else .error (.addressOutOfRange a)

/-! ### Program counter and output -/

/-- `pc <- pc + n` (rule R71). A step runs only at a `pc` of at most 255, where this never wraps (rule R20, log entry 6). -/
def State.advance (s : State) (n : Nat) : State := { s with pc := s.pc + BitVec.ofNat 9 n }

/-- `pc <- t` for a target byte (rule R96). -/
def State.jumpTo (s : State) (t : Byte) : State := { s with pc := t.setWidth 9 }

/-- `Emit(v)`: append to the output stream (rules R10, R29). -/
def State.emit (s : State) (v : Byte) : State := { s with output := s.output ++ [v] }

/-! ### Stack pointer (rule R16) -/

/-- Decrement SP; below 0 is a fault, never a wrap. Answers the new SP and the state that holds it. -/
def decSP (s : State) : Except FaultCause (Byte × State) := do
  let sp ← readReg s Config.spIndex
  let n : Int := (sp.toNat : Int) - 1
  if n < 0 then .error (.addressOutOfRange n)
  else do
    let v := BitVec.ofInt 8 n
    let t ← writeReg s Config.spIndex v
    return (v, t)

/-- Increment SP; above 255 is a fault, never a wrap. -/
def incSP (s : State) : Except FaultCause State := do
  let sp ← readReg s Config.spIndex
  let n : Int := (sp.toNat : Int) + 1
  if n > 255 then .error (.addressOutOfRange n)
  else writeReg s Config.spIndex (BitVec.ofInt 8 n)

/-- The byte SP addresses: the most recently pushed one (rule R16). -/
def readTop (s : State) : Except FaultCause Byte := do
  let sp ← readReg s Config.spIndex
  readMem s sp.toNat

/-! ### Faults (60_exceptions.md) -/

/-- The code of a fault (rule R99). -/
def FaultCause.code : FaultCause → Nat
  | .unknownOpcode _ => 1
  | .unsupportedALUOperation _ => 2
  | .addressOutOfRange _ => 3
  | .registerIndexOutOfRange _ => 4
  | .undefinedValue _ => 5

/-- Taking a fault: the status becomes `Faulted(record)` with the PC of the faulting instruction, and nothing else
changes (rules R70, R107). There is no return from a fault (rule R108). -/
def takeFault (c : FaultCause) (s : State) : State :=
  { s with status := .faulted { cause := c, pc := s.pc } }

/-- A step commits as a whole: all the handler's writes, or, if a check raised a fault, none of them (rule R70). -/
def commit (s : State) (r : Except FaultCause State) : Host.Outcome State Fault Refusal :=
  match r with
  | .ok t => .next t
  | .error c => .next (takeFault c s)

/-! ### Host load (rule R118) -/

/-- Bytes placed at `a`, `a + 1`, … in order; a byte whose address is 256 or more has no cell and is left out. -/
def Memory.writeAll : Memory → Nat → List Byte → Memory
  | m, _, [] => m
  | m, a, v :: vs => Memory.writeAll (if a < Config.memSize then m.write a v else m) (a + 1) vs

/-- The host places a program image from address 0; an image of more than 256 bytes is refused (rule R118). -/
def State.loadImage (s : State) (image : List Byte) : Option State :=
  if image.length ≤ Config.memSize then some { s with mem := s.mem.writeAll 0 image } else none

end Sys2Proof.Machine
end

