-- ==== Sys2Proof/Machine/Alu.lean ====
section
/-! DEFINITION. The ALU and its instructions ADD, MUL and CMP (41_alu.md). -/

namespace Sys2Proof.Machine

/-- The low 8 bits of the exact sum (rule R81). -/
def aluAdd (va vb : Byte) : Byte := BitVec.ofNat 8 ((va.toNat + vb.toNat) % 256)

/-- The low 8 bits of the exact product (rule R81). -/
def aluMul (va vb : Byte) : Byte := BitVec.ofNat 8 ((va.toNat * vb.toNat) % 256)

/-- `apply(op, a, b)`: register `a` is read before `b`; ADD and MUL write register `a`, CMP the flags (rule R79). An
unrecognised operation is a fault (rule R101). `clear` is `FLAGS_CLEAR_ON_CMP`. -/
def aluApply (clear : Bool) (op : AluOp) (a b : Byte) (s : State) : Except FaultCause State :=
  match op with
  | .add => do
    let va ← readReg s a
    let vb ← readReg s b
    writeReg s a (aluAdd va vb)
  | .mul => do
    let va ← readReg s a
    let vb ← readReg s b
    writeReg s a (aluMul va vb)
  | .cmp => do
    let va ← readReg s a
    let vb ← readReg s b
    return { s with flags := compareFlags clear s.flags va vb }
  | .unrecognised _ => .error (.unsupportedALUOperation op)

/-- The handler of an ALU instruction: the ALU's effect, then `pc + 3` (rules R80, R82..R84). -/
def aluHandler (clear : Bool) (op : AluOp) (a b : Byte) (s : State) : Except FaultCause State := do
  let t ← aluApply clear op a b s
  return t.advance 3

/-- ADD (rule R82). -/
def execAdd (a b : Byte) (s : State) : Host.Outcome State Fault Refusal :=
  commit s (aluHandler Config.flagsClearOnCmp .add a b s)

/-- MUL (rule R83). -/
def execMul (a b : Byte) (s : State) : Host.Outcome State Fault Refusal :=
  commit s (aluHandler Config.flagsClearOnCmp .mul a b s)

/-- CMP for either value of `FLAGS_CLEAR_ON_CMP` (rule R84). -/
def execCmpWith (clear : Bool) (a b : Byte) (s : State) : Host.Outcome State Fault Refusal :=
  commit s (aluHandler clear .cmp a b s)

/-- CMP (rule R84), with the spec's value of the parameter. -/
def execCmp (a b : Byte) (s : State) : Host.Outcome State Fault Refusal :=
  execCmpWith Config.flagsClearOnCmp a b s

end Sys2Proof.Machine
end

