-- ==== Sys2Proof/Machine/ControlFlow.lean ====
section
/-! DEFINITION. JMP, JEQ and JNE (43_control_flow.md). -/

namespace Sys2Proof.Machine

/-- Jump to the address register `a` holds: JMP, and the taken path of JEQ and JNE (rules R93..R95). -/
def jumpHandler (a : Byte) (s : State) : Except FaultCause State := do
  let t ← readReg s a
  return s.jumpTo t

/-- Jump when E equals `want`, else `pc + 2`; register `a` is read on the taken path only (rules R94, R95). -/
def branchHandler (want : Bool) (a : Byte) (s : State) : Except FaultCause State := do
  let e ← readFlag s .E
  if e = want then jumpHandler a s else .ok (s.advance 2)

/-- JMP (rule R93). -/
def execJmp (a : Byte) (s : State) : Host.Outcome State Fault Refusal := commit s (jumpHandler a s)

/-- JEQ (rule R94). -/
def execJeq (a : Byte) (s : State) : Host.Outcome State Fault Refusal := commit s (branchHandler true a s)

/-- JNE (rule R95). -/
def execJne (a : Byte) (s : State) : Host.Outcome State Fault Refusal := commit s (branchHandler false a s)

end Sys2Proof.Machine
end

