-- ==== Sys2Proof/Machine/RegisterStack.lean ====
section
/-! DEFINITION. LDI, PRN, PUSH, POP, CALL, RET and HALT (42_register_stack.md). Each handler runs its rule's statements
in the order written, and each statement sees the writes before it (rule R69). -/

namespace Sys2Proof.Machine

/-- LDI's handler (rule R85). -/
def ldiHandler (a imm : Byte) (s : State) : Except FaultCause State := do
  let t ← writeReg s a imm
  return t.advance 3

/-- PRN's handler (rule R86). -/
def prnHandler (a : Byte) (s : State) : Except FaultCause State := do
  let v ← readReg s a
  return (s.emit v).advance 2

/-- PUSH's handler (rule R87): `a = 7` reads the decremented SP. -/
def pushHandler (a : Byte) (s : State) : Except FaultCause State := do
  let (sp, t) ← decSP s
  let v ← readReg t a
  let u ← writeMem t sp.toNat v
  return u.advance 2

/-- POP's handler (rule R88): with `a = 7` the popped value is what is incremented. -/
def popHandler (a : Byte) (s : State) : Except FaultCause State := do
  let v ← readTop s
  let t ← writeReg s a v
  let u ← incSP t
  return u.advance 2

/-- CALL's handler (rule R89): the return address is checked first, and `a = 7` reads the decremented SP. -/
def callHandler (a : Byte) (s : State) : Except FaultCause State := do
  let r : Int := (s.pc.toNat : Int) + 2
  if r > 255 then .error (.addressOutOfRange r)
  else do
    let (sp, t) ← decSP s
    let u ← writeMem t sp.toNat (BitVec.ofInt 8 r)
    let target ← readReg u a
    return u.jumpTo target

/-- RET's handler (rule R90): one increment of SP. -/
def retHandler (s : State) : Except FaultCause State := do
  let target ← readTop s
  let t ← incSP s
  return t.jumpTo target

/-- HALT's handler (rule R91). -/
def haltHandler (s : State) : Except FaultCause State :=
  .ok (State.advance { s with status := .halted } 1)

/-- LDI (rule R85). -/
def execLdi (a imm : Byte) (s : State) : Host.Outcome State Fault Refusal := commit s (ldiHandler a imm s)

/-- PRN (rule R86). -/
def execPrn (a : Byte) (s : State) : Host.Outcome State Fault Refusal := commit s (prnHandler a s)

/-- PUSH (rule R87). -/
def execPush (a : Byte) (s : State) : Host.Outcome State Fault Refusal := commit s (pushHandler a s)

/-- POP (rule R88). -/
def execPop (a : Byte) (s : State) : Host.Outcome State Fault Refusal := commit s (popHandler a s)

/-- CALL (rule R89). -/
def execCall (a : Byte) (s : State) : Host.Outcome State Fault Refusal := commit s (callHandler a s)

/-- RET (rule R90). -/
def execRet (s : State) : Host.Outcome State Fault Refusal := commit s (retHandler s)

/-- HALT (rule R91). -/
def execHalt (s : State) : Host.Outcome State Fault Refusal := commit s (haltHandler s)

end Sys2Proof.Machine
end

