-- ==== Sys2Proof/Decode.lean ====
section
/-! DEFINITION. The opcode table (rules R49..R55), the decoder (rules R63..R66) and the encoder (rule R51). -/

namespace Sys2Proof

/-- The opcode byte of each operation (rule R54). -/
def Op.opcode : Op → Byte
  | .halt => 0x01
  | .ret => 0x11
  | .push => 0x45
  | .pop => 0x46
  | .prn => 0x47
  | .call => 0x50
  | .jmp => 0x54
  | .jeq => 0x55
  | .jne => 0x56
  | .ldi => 0x82
  | .add => 0xA0
  | .mul => 0xA2
  | .cmp => 0xA7

/-- The format of each operation (rules R51, R54). -/
def Op.format : Op → Format
  | .halt => .Z
  | .ret => .Z
  | .push => .R
  | .pop => .R
  | .prn => .R
  | .call => .R
  | .jmp => .R
  | .jeq => .R
  | .jne => .R
  | .ldi => .RI
  | .add => .RR
  | .mul => .RR
  | .cmp => .RR

/-- The number of operand bytes of a format (rule R51). -/
def Format.operandCount : Format → Nat
  | .Z => 0
  | .R => 1
  | .RR => 2
  | .RI => 2

/-- The operand count the table gives an operation; the decoder uses this, not the `AA` bits (rule R50). -/
def Op.operandCount (o : Op) : Nat := o.format.operandCount

/-- All rows of the opcode table, in its order (rule R54). -/
def Op.all : List Op :=
  [.halt, .ret, .push, .pop, .prn, .call, .jmp, .jeq, .jne, .ldi, .add, .mul, .cmp]

/-- The decoder's table lookup of the full opcode byte; `none` is an illegal opcode (rules R50, R56, R64). -/
def lookupOpcode (b : Byte) : Option Op := Op.all.find? (fun o => o.opcode == b)

/-- The four informational fields of an opcode byte (rule R49). No behaviour is derived from them (rule R50). -/
structure OpcodeFields where
  AA : BitVec 2
  B : BitVec 1
  C : BitVec 1
  DDDD : BitVec 4
  deriving DecidableEq, Repr

/-- Bits 7:6, 5, 4 and 3:0 of an opcode byte (rule R49). -/
def opcodeFields (b : Byte) : OpcodeFields :=
  { AA := b.extractLsb' 6 2, B := b.extractLsb' 5 1, C := b.extractLsb' 4 1, DDDD := b.extractLsb' 0 4 }

/-- The length of an instruction in bytes: the opcode byte and its operand bytes (rule R48). -/
def Instr.length (i : Instr) : Nat := 1 + i.op.operandCount

/-- What the decoder rejects, by name (rules R64, R66). -/
inductive Reject where
  /-- The opcode byte is none of the 13 defined values (rule R56). -/
  | unknownOpcode (op : Byte)
  /-- A register operand byte is 8 or more (rule R52). -/
  | registerIndexOutOfRange (index : Byte)
  deriving DecidableEq, Repr

/-- The decoder's check of one register operand (rule R66). -/
def checkReg {ε : Type} (reject : Reject → ε) (r : Byte) : Except ε Unit :=
  if isRegIndex r then .ok () else .error (reject (.registerIndexOutOfRange r))

/-- Format R: read operand `a`, then check it. `read n` reads the byte `n` places after the opcode byte. -/
def decodeR {ε : Type} (read : Nat → Except ε Byte) (reject : Reject → ε) (mk : Byte → Instr) : Except ε Instr := do
  let a ← read 1
  checkReg reject a
  return mk a

/-- Format RR: read both operands, then check `a`, then `b` (rules R65, R66). -/
def decodeRR {ε : Type} (read : Nat → Except ε Byte) (reject : Reject → ε) (mk : Byte → Byte → Instr) :
    Except ε Instr := do
  let a ← read 1
  let b ← read 2
  checkReg reject a
  checkReg reject b
  return mk a b

/-- Format RI: read both operands, then check `a` only (rule R66). -/
def decodeRI {ε : Type} (read : Nat → Except ε Byte) (reject : Reject → ε) (mk : Byte → Byte → Instr) :
    Except ε Instr := do
  let a ← read 1
  let imm ← read 2
  checkReg reject a
  return mk a imm

/-- The operand fetch and check of one operation (rules R65, R66). -/
def decodeOp {ε : Type} (read : Nat → Except ε Byte) (reject : Reject → ε) : Op → Except ε Instr
  | .halt => .ok .halt
  | .ret => .ok .ret
  | .push => decodeR read reject .push
  | .pop => decodeR read reject .pop
  | .prn => decodeR read reject .prn
  | .call => decodeR read reject .call
  | .jmp => decodeR read reject .jmp
  | .jeq => decodeR read reject .jeq
  | .jne => decodeR read reject .jne
  | .ldi => decodeRI read reject .ldi
  | .add => decodeRR read reject .add
  | .mul => decodeRR read reject .mul
  | .cmp => decodeRR read reject .cmp

/-- The decoder over any source of bytes: the opcode byte, the table lookup, then exactly the operand bytes the table
gives (rules R63..R66). The machine's fetch reads from memory, `decode` from a list. -/
def decodeFrom {ε : Type} (read : Nat → Except ε Byte) (reject : Reject → ε) : Except ε Instr := do
  let op ← read 0
  match lookupOpcode op with
  | none => .error (reject (.unknownOpcode op))
  | some o => decodeOp read reject o

/-- Why a list of bytes is no instruction. -/
inductive DecodeError where
  /-- The list ends before the instruction does. -/
  | truncated
  | rejected (r : Reject)
  deriving DecidableEq, Repr

/-- Byte `n` of a list, for the decoder. -/
def byteAt (bytes : List Byte) (n : Nat) : Except DecodeError Byte :=
  match bytes[n]? with
  | none => .error .truncated
  | some b => .ok b

/-- The instruction at the front of a list of bytes; bytes beyond it are not read (rule R65). -/
def decode (bytes : List Byte) : Except DecodeError Instr := decodeFrom (byteAt bytes) .rejected

/-- The operand bytes of an instruction: `a` first (rule R51). -/
def Instr.operandBytes : Instr → List Byte
  | .halt => []
  | .ret => []
  | .push a => [a]
  | .pop a => [a]
  | .prn a => [a]
  | .call a => [a]
  | .jmp a => [a]
  | .jeq a => [a]
  | .jne a => [a]
  | .ldi a imm => [a, imm]
  | .add a b => [a, b]
  | .mul a b => [a, b]
  | .cmp a b => [a, b]

/-- The bytes of an instruction, from its address upward (rules R36, R51). -/
def encode (i : Instr) : List Byte := i.op.opcode :: i.operandBytes

/-- The longest instruction's bytes out of a table word: byte 0 is bits 7:0, and bits at `nbits` and above are 0. -/
def tableWordBytes (nbits w : Nat) : List Byte :=
  let v := w % 2 ^ nbits
  [BitVec.ofNat 8 v, BitVec.ofNat 8 (v / 256), BitVec.ofNat 8 (v / 65536)]

/-- The instruction the decoder reads from a word numbered as `opcode_table.json` numbers it. -/
def decodeTableWord (nbits w : Nat) : Option Instr :=
  match decode (tableWordBytes nbits w) with
  | .ok i => some i
  | .error _ => none

end Sys2Proof
end

