-- ==== Sys2Proof/Machine/Fetch.lean ====
section
/-! DEFINITION. Fetch and decode from memory (rules R63..R67). -/

namespace Sys2Proof.Machine

/-- The fault a rejection of the decoder raises (rules R64, R66). -/
def rejectFault : Reject → FaultCause
  | .unknownOpcode op => .unknownOpcode op
  | .registerIndexOutOfRange i => .registerIndexOutOfRange i

/-- The instruction at `pc`, its opcode and operand bytes read from memory one by one (rules R35, R63..R67). -/
def fetchInstr (s : State) : Except FaultCause Instr :=
  decodeFrom (fun n => readMem s ((s.pc.toNat : Int) + n)) rejectFault

end Sys2Proof.Machine
end

