-- ==== Sys2Proof/Machine/Step.lean ====
section
/-! DEFINITION. One step of the block (rules R62, R72), and the state with an instruction placed where it fetches. -/

namespace Sys2Proof.Machine

/-- One step: only in status `Running`; fetch, decode, dispatch (rules R62, R72). A fault of fetch or decode is taken as
a next state, like a fault of a handler (rule R107). The two terminal statuses have no step (rules R73..R75). -/
def step (s : State) : Host.Outcome State Fault Refusal :=
  match s.status with
  | .halted => .fault .halted
  | .faulted r => .fault (.faulted r)
  | .running =>
    match fetchInstr s with
    | .error c => .next (takeFault c s)
    | .ok i => exec i s

/-- `s` with the bytes of a table word at `pc`, where `step` fetches its next instruction (log entry 7). -/
def State.withFetchWord (s : State) (nbits w : Nat) : State :=
  { s with mem := s.mem.writeAll s.pc.toNat (tableWordBytes nbits w) }

end Sys2Proof.Machine
end

