-- ==== Sys2Proof/Safety.lean ====
section
/-! DEFINITION. The terms the claims use: raising a fault, frames, the invariant of the machine, the result of a run. -/

namespace Sys2Proof.Machine

/-- `exec i s` raises the fault `c`: the status becomes `Faulted` with a record of the fault and the PC, and nothing
else changes (rule R107). -/
def Raises (i : Instr) (s : State) (c : FaultCause) : Prop :=
  exec i s = .next { s with status := .faulted { cause := c, pc := s.pc } }

/-- A whole step raises the fault `c`. -/
def StepRaises (s : State) (c : FaultCause) : Prop :=
  step s = .next { s with status := .faulted { cause := c, pc := s.pc } }

/-- Every register outside `ds` holds what it held, `⊥` included. -/
def RegsSameExcept (s t : State) (ds : List Byte) : Prop := ∀ i : Byte, i ∉ ds → t.reg i = s.reg i

/-- Every address outside `as` reads as it read, faults included. -/
def MemSameExcept (s t : State) (as : List Int) : Prop := ∀ a : Int, a ∉ as → readMem t a = readMem s a

/-- The frame of an instruction: the registers outside `ds`, the addresses outside `as`, the flags, the run status and
the output stream are as they were. The PC may change. -/
def Frame (s t : State) (ds : List Byte) (as : List Int) : Prop :=
  RegsSameExcept s t ds ∧ MemSameExcept s t as ∧ t.flags = s.flags ∧ t.status = s.status ∧ t.output = s.output

/-- Whether a status is `Faulted`. -/
def Status.isFaulted : Status → Bool
  | .running => false
  | .halted => false
  | .faulted _ => true

/-- What a fault record may hold (rule R99): an opcode byte outside the table, an address of -1 or 256..258, an index of
8 or more, a location of the machine. Only E is ever read (rule R22), and no program raises
`UnsupportedALUOperation` (rule R80). -/
def FaultCause.legal : FaultCause → Bool
  | .unknownOpcode op => (lookupOpcode op).isNone
  | .unsupportedALUOperation _ => false
  | .addressOutOfRange a => decide (a = -1 ∨ (256 ≤ a ∧ a ≤ 258))
  | .registerIndexOutOfRange i => decide (8 ≤ i.toNat)
  | .undefinedValue (.register i) => decide (i.toNat < 8)
  | .undefinedValue (.flag f) => decide (f = .E)
  | .undefinedValue (.memory a) => decide (a < 256)

/-- A fault record is legal and names the PC, which a fault leaves where it was (rules R26, R107); HALT's PC is one past
an address of memory (rule R91). -/
def Status.legalAt (pc : PcWord) : Status → Bool
  | .running => true
  | .halted => decide (1 ≤ pc.toNat ∧ pc.toNat ≤ 256)
  | .faulted r => r.cause.legal && decide (r.pc = pc)

/-- The invariant of the machine: memory is in canonical form within 0..255, the PC is one of the reachable values 0..258
(rule R18), and a terminal status is one the block can be in. -/
abbrev State.Inv (s : State) : Prop :=
  s.mem.wf ∧ s.pc.toNat ≤ 258 ∧ s.status.legalAt s.pc = true

/-- The state with L and G forgotten: two states are alike for the program when these agree (rule R22). -/
def State.forgetLG (s : State) : State := { s with flags := { E := s.flags.E, L := none, G := none } }

/-- What the host may read, and only once the run has stopped (rules R30, R47, R77): the whole state. -/
def State.readBack (s : State) : Option State := if s.status = .running then none else some s

/-- A step that neither stops nor takes a fault: it completes the instruction fetched at the PC. -/
def Completes (s : State) (i : Instr) (t : State) : Prop :=
  fetchInstr s = .ok i ∧ step s = .next t ∧ t.status.isFaulted = false

/-- The registers that an instruction may write, SP included (rule R14). -/
def writtenRegs : Instr → List Byte
  | .halt => []
  | .ret => [7]
  | .push _ => [7]
  | .pop a => [a, 7]
  | .prn _ => []
  | .call _ => [7]
  | .jmp _ => []
  | .jeq _ => []
  | .jne _ => []
  | .ldi a _ => [a]
  | .add a _ => [a]
  | .mul a _ => [a]
  | .cmp _ _ => []

end Sys2Proof.Machine
end

