-- ==== Sys2Proof/Certificates/Slice0/Obligations.lean ====
section
/-! DEFINITION. The statements for the provers. -/

open Sys2Proof Sys2Proof.Machine

/-! ### Encoding and decoding -/

/-- Decoding the bytes of a well-formed instruction, whatever follows them, gives that instruction (R48, R51, R65). -/
def Obligations.DecodeOfEncodeIsIdentity : Prop :=
  ∀ (i : Instr) (rest : List Byte), i.wf = true → decode (encode i ++ rest) = .ok i

/-- The bytes the decoder accepts are a well-formed instruction's encoding and what follows it, so every accepted byte
string has one meaning (R50, R56, R57). -/
def Obligations.DecodedBytesAreTheEncoding : Prop :=
  ∀ (bs : List Byte) (i : Instr), decode bs = .ok i → i.wf = true ∧ ∃ rest, bs = encode i ++ rest

/-- One word of each instruction, written out bit by bit from rules R51 and R54. -/
def Obligations.WrittenOutWordsDecode : Prop :=
  decode [0b00000001] = .ok .halt ∧
  decode [0b00010001] = .ok .ret ∧
  decode [0b01000101, 0b00000011] = .ok (.push 3) ∧
  decode [0b01000110, 0b00000111] = .ok (.pop 7) ∧
  decode [0b01000111, 0b00000001] = .ok (.prn 1) ∧
  decode [0b01010000, 0b00000010] = .ok (.call 2) ∧
  decode [0b01010100, 0b00000100] = .ok (.jmp 4) ∧
  decode [0b01010101, 0b00000101] = .ok (.jeq 5) ∧
  decode [0b01010110, 0b00000110] = .ok (.jne 6) ∧
  decode [0b10000010, 0b00000000, 0b11111111] = .ok (.ldi 0 255) ∧
  decode [0b10100000, 0b00000001, 0b00000010] = .ok (.add 1 2) ∧
  decode [0b10100010, 0b00000011, 0b00000100] = .ok (.mul 3 4) ∧
  decode [0b10100111, 0b00000101, 0b00000110] = .ok (.cmp 5 6)

/-- The informational bits of the 13 defined opcodes agree with behaviour (R55). -/
def Obligations.StructuralBitsAgreeWithTheTable : Prop :=
  ∀ o : Op,
    (opcodeFields o.opcode).AA.toNat = o.operandCount ∧
    ((opcodeFields o.opcode).B = 1 ↔ o = .add ∨ o = .mul ∨ o = .cmp) ∧
    ((opcodeFields o.opcode).C = 1 ↔ o = .call ∨ o = .ret ∨ o = .jmp ∨ o = .jeq ∨ o = .jne) ∧
    (opcodeFields o.opcode).AA ≠ 3

/-! ### Fetch, decode and step -/

/-- When the bytes at the PC decode to an instruction, a running step is that instruction's meaning at that state; the
step adds nothing around it (R67, R68, R71). -/
def Obligations.StepRunsTheDecodedInstruction : Prop :=
  ∀ (s : State) (bs : List Byte) (i : Instr), s.status = .running →
    (∀ n (h : n < bs.length), readMem s ((s.pc.toNat : Int) + n) = .ok bs[n]) → decode bs = .ok i →
    step s = exec i s

/-- The opcode fetch (R63): the range of the PC, then `⊥`. -/
def Obligations.OpcodeFetchFaults : Prop :=
  ∀ s : State, s.status = .running →
    (256 ≤ s.pc.toNat → StepRaises s (.addressOutOfRange s.pc.toNat)) ∧
    (s.pc.toNat < 256 → s.mem.read s.pc.toNat = none → StepRaises s (.undefinedValue (.memory s.pc.toNat)))

/-- An opcode byte that is none of the 13 defined values faults at once with code 1, whatever the cells after it hold (R64,
R100). -/
def Obligations.UndefinedOpcodeFaultsAtOnce : Prop :=
  ∀ (s : State) (op : Byte), s.status = .running → readMem s s.pc.toNat = .ok op →
    op ∉ ([0x01, 0x11, 0x45, 0x46, 0x47, 0x50, 0x54, 0x55, 0x56, 0x82, 0xA0, 0xA2, 0xA7] : List Byte) →
    StepRaises s (.unknownOpcode op) ∧ (FaultCause.unknownOpcode op).code = 1

/-- The operand fetch (R65): exactly as many operand bytes as the table gives, each range-checked; HALT and RET read
none, so what stands after them does not matter, and at address 255 nothing past it is fetched. -/
def Obligations.OperandFetchReadsTheTableCount : Prop :=
  ∀ (s : State) (o : Op), s.status = .running → readMem s s.pc.toNat = .ok o.opcode →
    (o = .halt → step s = exec .halt s) ∧
    (o = .ret → step s = exec .ret s) ∧
    (1 ≤ o.operandCount → s.pc.toNat = 255 → StepRaises s (.addressOutOfRange 256)) ∧
    (1 ≤ o.operandCount → s.pc.toNat ≤ 254 → s.mem.read (s.pc.toNat + 1) = none →
      StepRaises s (.undefinedValue (.memory (s.pc.toNat + 1)))) ∧
    (∀ a, o.operandCount = 2 → s.mem.read (s.pc.toNat + 1) = some a →
      (s.pc.toNat = 254 → StepRaises s (.addressOutOfRange 256)) ∧
      (s.pc.toNat ≤ 253 → s.mem.read (s.pc.toNat + 2) = none →
        StepRaises s (.undefinedValue (.memory (s.pc.toNat + 2))))) ∧
    (∀ a, o.operandCount = 1 → readMem s (s.pc.toNat + 1) = .ok a → a.toNat < 8 →
      ∃ i, i.op = o ∧ i.operandBytes = [a] ∧ step s = exec i s) ∧
    (∀ a b, o.operandCount = 2 → readMem s (s.pc.toNat + 1) = .ok a → readMem s (s.pc.toNat + 2) = .ok b →
      a.toNat < 8 → b.toNat < 8 → ∃ i, i.op = o ∧ i.operandBytes = [a, b] ∧ step s = exec i s)

/-- The register check at decode (R66): `a` for formats R, RR and RI, then `b` for RR only; LDI's immediate is not
checked. -/
def Obligations.RegisterIndicesAreCheckedAtDecode : Prop :=
  ∀ (s : State) (o : Op) (a b : Byte), s.status = .running → readMem s s.pc.toNat = .ok o.opcode →
    readMem s (s.pc.toNat + 1) = .ok a →
    (o.format = .R → 8 ≤ a.toNat → StepRaises s (.registerIndexOutOfRange a)) ∧
    (readMem s (s.pc.toNat + 2) = .ok b →
      (o.format = .RR ∨ o.format = .RI → 8 ≤ a.toNat → StepRaises s (.registerIndexOutOfRange a)) ∧
      (o.format = .RR → a.toNat < 8 → 8 ≤ b.toNat → StepRaises s (.registerIndexOutOfRange b)) ∧
      (o.format = .RI → a.toNat < 8 → step s = exec (.ldi a b) s))

/-- A step exists exactly in status `Running`: a running block always answers a next state, and nothing but HALT or a
fault ends a run (R62, R73..R76). That the two terminal statuses answer the model's own stops `halted` and `faulted` is the
model's form of "no step" (log entry 3). -/
def Obligations.StepExistsExactlyWhenRunning : Prop :=
  ∀ s : State,
    ((∃ t, step s = .next t) ↔ s.status = .running) ∧
    (s.status = .halted → step s = .fault .halted) ∧
    (∀ r, s.status = .faulted r → step s = .fault (.faulted r))

/-- `Running` becomes `Halted` only through HALT, and HALT always halts; every other step stays `Running` or takes a
fault (R25, R73). -/
def Obligations.OnlyHaltHalts : Prop :=
  ∀ s t : State, step s = .next t →
    (t.status = .halted ↔ fetchInstr s = .ok .halt) ∧
    (t.status = .running ∨ t.status = .halted ∨ ∃ c, t.status = .faulted { cause := c, pc := s.pc })

/-- A step that faults commits nothing: every other part of the state is as before, the record names the PC of the
faulting instruction, and the block takes no further step (R26, R70, R107). -/
def Obligations.FaultingStepCommitsNothing : Prop :=
  ∀ (s t : State) (r : FaultRecord), step s = .next t → t.status = .faulted r →
    r.pc = s.pc ∧ t.regs = s.regs ∧ t.flags = s.flags ∧ t.pc = s.pc ∧ t.mem = s.mem ∧ t.output = s.output ∧
      ¬ ∃ u, step t = .next u

/-- The codes of the five faults (R99). -/
def Obligations.FaultCodes : Prop :=
  ∀ (op : Byte) (x : AluOp) (a : Int) (i : Byte) (l : Location),
    (FaultCause.unknownOpcode op).code = 1 ∧ (FaultCause.unsupportedALUOperation x).code = 2 ∧
    (FaultCause.addressOutOfRange a).code = 3 ∧ (FaultCause.registerIndexOutOfRange i).code = 4 ∧
    (FaultCause.undefinedValue l).code = 5

/-- `AddressOutOfRange` is raised, with the offending value, only in the cases of rule R102. -/
def Obligations.AddressFaultsOnlyInTheListedCases : Prop :=
  ∀ (s : State) (x : Int), StepRaises s (.addressOutOfRange x) →
    (256 ≤ s.pc.toNat ∧ x = s.pc.toNat) ∨
    (∃ o : Op, readMem s s.pc.toNat = .ok o.opcode ∧
      ((1 ≤ o.operandCount ∧ 256 ≤ s.pc.toNat + 1 ∧ x = (s.pc.toNat : Int) + 1) ∨
       (2 ≤ o.operandCount ∧ 256 ≤ s.pc.toNat + 2 ∧ x = (s.pc.toNat : Int) + 2))) ∨
    (∃ a, (fetchInstr s = .ok (.push a) ∨ fetchInstr s = .ok (.call a)) ∧ s.reg 7 = some 0 ∧ x = -1) ∨
    (fetchInstr s = .ok .ret ∧ s.reg 7 = some 255 ∧ x = 256) ∨
    (∃ a, fetchInstr s = .ok (.pop a) ∧ x = 256 ∧
      ((a ≠ 7 ∧ s.reg 7 = some 255) ∨
       (a = 7 ∧ ∃ sp, s.reg 7 = some sp ∧ s.mem.read sp.toNat = some 255))) ∨
    (∃ a, fetchInstr s = .ok (.call a) ∧ s.pc.toNat = 254 ∧ x = 256)

/-- No step of any state raises `UnsupportedALUOperation`, its code is 2, and the ALU raises it on every name but
its own three (R79, R80, R101). -/
def Obligations.NoProgramReachesUnsupportedAluOperation : Prop :=
  (∀ (s : State) (op : AluOp), ¬ StepRaises s (.unsupportedALUOperation op)) ∧
  (∀ op : AluOp, (FaultCause.unsupportedALUOperation op).code = 2) ∧
  (∀ (clear : Bool) (name : String) (a b : Byte) (s : State),
    aluApply clear (.unrecognised name) a b s = .error (.unsupportedALUOperation (.unrecognised name)))

/-! ### The ALU -/

/-- ADD (R82): encoding, the sum modulo 256, the frame, and the faults with `a` read first. -/
def Obligations.AddWritesTheSumModulo256 : Prop :=
  ∀ (s : State) (a b : Byte),
    encode (.add a b) = [0xA0, a, b] ∧
    (∀ va vb, s.reg a = some va → s.reg b = some vb →
      ∃ t, exec (.add a b) s = .next t ∧
        (∃ w, t.reg a = some w ∧ w.toNat = (va.toNat + vb.toNat) % 256) ∧
        t.pc = s.pc + 3 ∧ Frame s t [a] []) ∧
    (a.toNat < 8 → s.reg a = none → Raises (.add a b) s (.undefinedValue (.register a))) ∧
    (∀ va, s.reg a = some va → b.toNat < 8 → s.reg b = none →
      Raises (.add a b) s (.undefinedValue (.register b)))

/-- MUL (R83): encoding, the product modulo 256, the frame, and the faults with `a` read first. -/
def Obligations.MulWritesTheProductModulo256 : Prop :=
  ∀ (s : State) (a b : Byte),
    encode (.mul a b) = [0xA2, a, b] ∧
    (∀ va vb, s.reg a = some va → s.reg b = some vb →
      ∃ t, exec (.mul a b) s = .next t ∧
        (∃ w, t.reg a = some w ∧ w.toNat = (va.toNat * vb.toNat) % 256) ∧
        t.pc = s.pc + 3 ∧ Frame s t [a] []) ∧
    (a.toNat < 8 → s.reg a = none → Raises (.mul a b) s (.undefinedValue (.register a))) ∧
    (∀ va, s.reg a = some va → b.toNat < 8 → s.reg b = none →
      Raises (.mul a b) s (.undefinedValue (.register b)))

/-- CMP (R84) for both values of `FLAGS_CLEAR_ON_CMP`, and the spec's own value: encoding, the flags, everything else
unchanged, and the faults with `a` read first. -/
def Obligations.CmpWritesTheFlags : Prop :=
  ∀ (s : State) (a b : Byte),
    encode (.cmp a b) = [0xA7, a, b] ∧
    exec (.cmp a b) s = execCmpWith true a b s ∧
    (∀ va vb, s.reg a = some va → s.reg b = some vb →
      exec (.cmp a b) s = .next { s with
        flags := { E := some (decide (va.toNat = vb.toNat))
                   L := some (decide (va.toNat < vb.toNat))
                   G := some (decide (va.toNat > vb.toNat)) }
        pc := s.pc + 3 } ∧
      execCmpWith false a b s = .next { s with
        flags := { E := if va.toNat = vb.toNat then some true else s.flags.E
                   L := if va.toNat < vb.toNat then some true else s.flags.L
                   G := if va.toNat > vb.toNat then some true else s.flags.G }
        pc := s.pc + 3 }) ∧
    (∀ clear : Bool,
      (a.toNat < 8 → s.reg a = none →
        execCmpWith clear a b s =
          .next { s with status := .faulted { cause := .undefinedValue (.register a), pc := s.pc } }) ∧
      (∀ va, s.reg a = some va → b.toNat < 8 → s.reg b = none →
        execCmpWith clear a b s =
          .next { s with status := .faulted { cause := .undefinedValue (.register b), pc := s.pc } }))

/-- After a CMP that completes, exactly one of E, L and G is 1 and the other two are 0 (R84). -/
def Obligations.CmpSetsExactlyOneFlag : Prop :=
  ∀ (s t : State) (a b : Byte), exec (.cmp a b) s = .next t → s.status = .running → t.status = .running →
    t.flags = { E := some true, L := some false, G := some false } ∨
    t.flags = { E := some false, L := some true, G := some false } ∨
    t.flags = { E := some false, L := some false, G := some true }

/-! ### Registers and stack -/

/-- LDI (R85): encoding, the immediate in the register whatever it held, the frame; no fault. -/
def Obligations.LdiLoadsTheImmediate : Prop :=
  ∀ (s : State) (a imm : Byte),
    encode (.ldi a imm) = [0x82, a, imm] ∧
    (a.toNat < 8 → ∃ t, exec (.ldi a imm) s = .next t ∧
      t.reg a = some imm ∧ t.pc = s.pc + 3 ∧ Frame s t [a] [])

/-- PRN (R86): encoding, the register's value appended to the output and nothing else changed; on `⊥` nothing is
emitted. -/
def Obligations.PrnEmitsTheRegister : Prop :=
  ∀ (s : State) (a : Byte),
    encode (.prn a) = [0x47, a] ∧
    (∀ v, s.reg a = some v →
      exec (.prn a) s = .next { s with output := s.output ++ [v], pc := s.pc + 2 }) ∧
    (a.toNat < 8 → s.reg a = none → Raises (.prn a) s (.undefinedValue (.register a)))

/-- PUSH (R87): encoding, SP down by one, the byte stored at the new SP, the frame, the faults in order. `PUSH R7` stores
the decremented SP. An SP that holds `⊥` faults as any read of `⊥` does (R10, R28). -/
def Obligations.PushStoresBelowTheStackPointer : Prop :=
  ∀ (s : State) (a : Byte),
    encode (.push a) = [0x45, a] ∧
    (∀ sp v, s.reg 7 = some sp → sp.toNat ≠ 0 → (if a = 7 then some (sp - 1) else s.reg a) = some v →
      ∃ t, exec (.push a) s = .next t ∧
        (∃ w, t.reg 7 = some w ∧ w.toNat + 1 = sp.toNat) ∧
        readMem t ((sp.toNat : Int) - 1) = .ok v ∧
        t.pc = s.pc + 2 ∧ Frame s t [7] [(sp.toNat : Int) - 1]) ∧
    (s.reg 7 = some 0 → Raises (.push a) s (.addressOutOfRange (-1))) ∧
    (∀ sp, s.reg 7 = some sp → sp.toNat ≠ 0 → a ≠ 7 → a.toNat < 8 → s.reg a = none →
      Raises (.push a) s (.undefinedValue (.register a))) ∧
    (s.reg 7 = none → Raises (.push a) s (.undefinedValue (.register 7)))

/-- POP (R88): encoding, the byte at SP in the register, SP up by one, the frame, the faults in order. `POP R7` leaves the
popped value plus one in SP. An SP that holds `⊥` faults as any read of `⊥` does (R10, R28). -/
def Obligations.PopLoadsFromTheStackPointer : Prop :=
  ∀ (s : State) (a : Byte), a.toNat < 8 →
    encode (.pop a) = [0x46, a] ∧
    (s.reg 7 = none → Raises (.pop a) s (.undefinedValue (.register 7))) ∧
    (∀ sp, s.reg 7 = some sp →
      (s.mem.read sp.toNat = none → Raises (.pop a) s (.undefinedValue (.memory sp.toNat))) ∧
      (∀ v, s.mem.read sp.toNat = some v →
        (a ≠ 7 → sp.toNat ≠ 255 → ∃ t, exec (.pop a) s = .next t ∧
          t.reg a = some v ∧ (∃ w, t.reg 7 = some w ∧ w.toNat = sp.toNat + 1) ∧
          t.pc = s.pc + 2 ∧ Frame s t [a, 7] []) ∧
        (a ≠ 7 → sp.toNat = 255 → Raises (.pop a) s (.addressOutOfRange 256)) ∧
        (a = 7 → v.toNat ≠ 255 → ∃ t, exec (.pop a) s = .next t ∧
          (∃ w, t.reg 7 = some w ∧ w.toNat = v.toNat + 1) ∧
          t.pc = s.pc + 2 ∧ Frame s t [7] []) ∧
        (a = 7 → v.toNat = 255 → Raises (.pop a) s (.addressOutOfRange 256))))

/-- CALL (R89): encoding, the return address at the new SP, the PC at the register's value, the frame, the faults in
order. `CALL R7` jumps to the decremented SP. An SP that holds `⊥` faults as any read of `⊥` does (R10, R28). -/
def Obligations.CallPushesTheReturnAddress : Prop :=
  ∀ (s : State) (a : Byte),
    encode (.call a) = [0x50, a] ∧
    (254 ≤ s.pc.toNat → Raises (.call a) s (.addressOutOfRange ((s.pc.toNat : Int) + 2))) ∧
    (s.pc.toNat ≤ 253 →
      (s.reg 7 = none → Raises (.call a) s (.undefinedValue (.register 7))) ∧
      (s.reg 7 = some 0 → Raises (.call a) s (.addressOutOfRange (-1))) ∧
      (∀ sp, s.reg 7 = some sp → sp.toNat ≠ 0 →
        (a ≠ 7 → a.toNat < 8 → s.reg a = none → Raises (.call a) s (.undefinedValue (.register a))) ∧
        (∀ v, (if a = 7 then some (sp - 1) else s.reg a) = some v →
          ∃ t, exec (.call a) s = .next t ∧
            (∃ w, t.reg 7 = some w ∧ w.toNat + 1 = sp.toNat) ∧
            (∃ r, readMem t ((sp.toNat : Int) - 1) = .ok r ∧ r.toNat = s.pc.toNat + 2) ∧
            t.pc.toNat = v.toNat ∧ Frame s t [7] [(sp.toNat : Int) - 1])))

/-- RET (R90): encoding, the byte at SP in the PC, SP up by one, the frame, the faults in order. An SP that holds `⊥`
faults as any read of `⊥` does (R10, R28). -/
def Obligations.RetPopsThePc : Prop :=
  ∀ s : State,
    encode .ret = [0x11] ∧
    (s.reg 7 = none → Raises .ret s (.undefinedValue (.register 7))) ∧
    (∀ sp, s.reg 7 = some sp →
      (s.mem.read sp.toNat = none → Raises .ret s (.undefinedValue (.memory sp.toNat))) ∧
      (∀ v, s.mem.read sp.toNat = some v →
        (sp.toNat = 255 → Raises .ret s (.addressOutOfRange 256)) ∧
        (sp.toNat ≠ 255 → ∃ t, exec .ret s = .next t ∧
          t.pc.toNat = v.toNat ∧ (∃ w, t.reg 7 = some w ∧ w.toNat = sp.toNat + 1) ∧ Frame s t [7] [])))

/-- HALT (R91): encoding, status `Halted`, the PC one past the instruction, also at address 255, nothing else changed, and
no step after it. -/
def Obligations.HaltStopsTheRun : Prop :=
  encode .halt = [0x01] ∧
  ∀ s : State, ∃ t, exec .halt s = .next t ∧ t = { s with status := .halted, pc := s.pc + 1 } ∧
    (s.pc.toNat ≤ 255 → t.pc.toNat = s.pc.toNat + 1) ∧ ¬ ∃ u, step t = .next u

/-! ### Control flow -/

/-- JMP (R93): encoding, the PC at the register's value, nothing else changed, no flag read. -/
def Obligations.JmpJumpsThroughTheRegister : Prop :=
  ∀ (s : State) (a : Byte),
    encode (.jmp a) = [0x54, a] ∧
    (∀ v, s.reg a = some v → exec (.jmp a) s = .next { s with pc := v.setWidth 9 }) ∧
    (a.toNat < 8 → s.reg a = none → Raises (.jmp a) s (.undefinedValue (.register a)))

/-- JEQ (R94): taken when E is 1, else `pc + 2` without reading the register; nothing else changed; the faults. -/
def Obligations.JeqJumpsWhenEIsSet : Prop :=
  ∀ (s : State) (a : Byte),
    encode (.jeq a) = [0x55, a] ∧
    (∀ v, s.flags.E = some true → s.reg a = some v → exec (.jeq a) s = .next { s with pc := v.setWidth 9 }) ∧
    (s.flags.E = some false → exec (.jeq a) s = .next { s with pc := s.pc + 2 }) ∧
    (s.flags.E = none → Raises (.jeq a) s (.undefinedValue (.flag .E))) ∧
    (s.flags.E = some true → a.toNat < 8 → s.reg a = none → Raises (.jeq a) s (.undefinedValue (.register a)))

/-- JNE (R95): taken when E is 0, else `pc + 2` without reading the register; nothing else changed; the faults. -/
def Obligations.JneJumpsWhenEIsClear : Prop :=
  ∀ (s : State) (a : Byte),
    encode (.jne a) = [0x56, a] ∧
    (∀ v, s.flags.E = some false → s.reg a = some v → exec (.jne a) s = .next { s with pc := v.setWidth 9 }) ∧
    (s.flags.E = some true → exec (.jne a) s = .next { s with pc := s.pc + 2 }) ∧
    (s.flags.E = none → Raises (.jne a) s (.undefinedValue (.flag .E))) ∧
    (s.flags.E = some false → a.toNat < 8 → s.reg a = none → Raises (.jne a) s (.undefinedValue (.register a)))

/-- With E defined and a target in the register, JEQ transfers control if and only if E is set and JNE if and only if it
is clear, so exactly one of the two on the same register jumps; the other falls through to `pc + 2` (R98). -/
def Obligations.ExactlyOneOfJeqAndJneJumps : Prop :=
  ∀ (s : State) (a v : Byte) (e : Bool), s.flags.E = some e → s.reg a = some v →
    exec (.jeq a) s = .next { s with pc := if e then v.setWidth 9 else s.pc + 2 } ∧
    exec (.jne a) s = .next { s with pc := if e then s.pc + 2 else v.setWidth 9 }

/-- The next PC of every completed step (R19, R20, R96): the instruction's length past the PC, counted without wrapping,
or a byte target. CALL's register is read after SP moved, so it is read in the state after. -/
def Obligations.NextPcOfEveryInstruction : Prop :=
  ∀ (s t : State) (i : Instr), Completes s i t →
    match i with
    | .halt => t.pc.toNat = s.pc.toNat + 1
    | .ret => ∃ sp v, s.reg 7 = some sp ∧ s.mem.read sp.toNat = some v ∧ t.pc.toNat = v.toNat
    | .prn _ | .push _ | .pop _ => t.pc.toNat = s.pc.toNat + 2
    | .call a => ∃ v, t.reg a = some v ∧ (a ≠ 7 → s.reg a = some v) ∧ t.pc.toNat = v.toNat
    | .jmp a => ∃ v, s.reg a = some v ∧ t.pc.toNat = v.toNat
    | .jeq a => (s.flags.E = some true ∧ ∃ v, s.reg a = some v ∧ t.pc.toNat = v.toNat) ∨
        (s.flags.E = some false ∧ t.pc.toNat = s.pc.toNat + 2)
    | .jne a => (s.flags.E = some false ∧ ∃ v, s.reg a = some v ∧ t.pc.toNat = v.toNat) ∨
        (s.flags.E = some true ∧ t.pc.toNat = s.pc.toNat + 2)
    | .ldi _ _ | .add _ _ | .mul _ _ | .cmp _ _ => t.pc.toNat = s.pc.toNat + 3

/-! ### Rules over all instructions -/

/-- The flags are written by CMP alone (R21): any other step leaves all three as they were. -/
def Obligations.OnlyCmpWritesTheFlags : Prop :=
  ∀ s t : State, step s = .next t → (∀ a b, fetchInstr s ≠ .ok (.cmp a b)) → t.flags = s.flags

/-- The output stream grows by the value of PRN's register and by nothing else, in program order (R29). -/
def Obligations.OnlyPrnExtendsTheOutput : Prop :=
  ∀ s t : State, step s = .next t →
    t.output = s.output ∨
    ∃ a v, fetchInstr s = .ok (.prn a) ∧ s.reg a = some v ∧ t.output = s.output ++ [v]

/-- Only PUSH and CALL write memory, one byte at the new SP; every other step leaves every address as it was (R34). -/
def Obligations.OnlyPushAndCallWriteMemory : Prop :=
  ∀ s t : State, step s = .next t →
    MemSameExcept s t [] ∨
    ∃ a sp, (fetchInstr s = .ok (.push a) ∨ fetchInstr s = .ok (.call a)) ∧
      s.reg 7 = some sp ∧ sp.toNat ≠ 0 ∧ MemSameExcept s t [(sp.toNat : Int) - 1]

/-- A completed step writes no register but those the table of rule R14 gives its instruction. -/
def Obligations.RegistersWrittenAsTheTableSays : Prop :=
  ∀ (s t : State) (i : Instr), Completes s i t → RegsSameExcept s t (writtenRegs i)

/-- L and G are read by no instruction (R22): two states that differ in L and G alone take steps that agree in
everything but L and G. -/
def Obligations.LAndGAreReadByNoInstruction : Prop :=
  ∀ s s' t : State, s.forgetLG = s'.forgetLG → step s = .next t →
    ∃ t', step s' = .next t' ∧ t.forgetLG = t'.forgetLG

/-- A step writes no register with `⊥`: a register that holds a value keeps holding one (R28: "Every write stores a
defined value"). The same of flags and cells. -/
def Obligations.DefinedValuesStayDefined : Prop :=
  ∀ s t : State, step s = .next t →
    (∀ r : Byte, (s.reg r).isSome → (t.reg r).isSome) ∧
    (∀ f : FlagName, (s.flags.get f).isSome → (t.flags.get f).isSome) ∧
    (∀ a : Nat, (s.mem.read a).isSome → (t.mem.read a).isSome)

/-! ### Memory -/

/-- The memory interface (R33, R39): a write changes the addressed cell alone, and a read returns the byte last
written. -/
def Obligations.ReadReturnsTheByteLastWritten : Prop :=
  ∀ (s : State) (a : Int) (v : Byte), 0 ≤ a → a < 256 →
    ∃ t, writeMem s a v = .ok t ∧ readMem t a = .ok v ∧ MemSameExcept s t [a] ∧
      t.regs = s.regs ∧ t.flags = s.flags ∧ t.pc = s.pc ∧ t.status = s.status ∧ t.output = s.output

/-- An address outside 0..255 is never accessed and never wraps: a read and a write of it fault with that address
(R10, R38). -/
def Obligations.AddressesOutsideMemoryFault : Prop :=
  ∀ (s : State) (a : Int) (v : Byte), a < 0 ∨ 256 ≤ a →
    readMem s a = .error (.addressOutOfRange a) ∧ writeMem s a v = .error (.addressOutOfRange a)

/-- A byte that PUSH stores where the next instruction stands is what the next step fetches (R45, R121): an opcode
outside the table faults there, and HALT's opcode halts. -/
def Obligations.StoredByteIsFetchedNext : Prop :=
  ∀ (s t : State) (a sp v : Byte), Completes s (.push a) t → s.status = .running → s.reg 7 = some sp →
    sp.toNat = s.pc.toNat + 3 → a ≠ 7 → s.reg a = some v →
    readMem t t.pc.toNat = .ok v ∧
    (lookupOpcode v = none → StepRaises t (.unknownOpcode v)) ∧
    (v = 0x01 → step t = .next { t with status := .halted, pc := t.pc + 1 })

/-! ### Laws of the stack -/

/-- PUSH, anything that keeps SP and the pushed cell, then POP: the value is in the second register and SP is back
(R92, first law; neither register is R7). -/
def Obligations.PushThenPopRestores : Prop :=
  ∀ (s t u : State) (a b sp v : Byte), a ≠ 7 → b ≠ 7 → b.toNat < 8 → s.reg 7 = some sp → sp.toNat ≠ 0 →
    s.reg a = some v → exec (.push a) s = .next t →
    u.reg 7 = t.reg 7 → readMem u ((sp.toNat : Int) - 1) = readMem t ((sp.toNat : Int) - 1) →
    ∃ w, exec (.pop b) u = .next w ∧ w.reg b = some v ∧ w.reg 7 = some sp ∧ w.status = u.status

/-- CALL, any subroutine that leaves SP and the return cell as at entry, then RET: control is at the instruction after the
CALL and SP is back (R92, second law). -/
def Obligations.CallThenRetReturns : Prop :=
  ∀ (s t u : State) (a sp : Byte), s.reg 7 = some sp → exec (.call a) s = .next t →
    s.status = .running → t.status = .running →
    u.reg 7 = t.reg 7 → readMem u ((sp.toNat : Int) - 1) = readMem t ((sp.toNat : Int) - 1) →
    ∃ w, exec .ret u = .next w ∧ w.pc.toNat = s.pc.toNat + 2 ∧ w.reg 7 = some sp ∧ w.status = u.status

/-- Each completed PUSH and CALL lowers SP by exactly 1, and each completed RET and POP, but for `POP R7`, raises it by
exactly 1; SP never wraps (R16; R92, third law). -/
def Obligations.StackDepthMovesByOne : Prop :=
  ∀ (s t : State) (i : Instr) (sp : Byte), Completes s i t → s.reg 7 = some sp →
    (∀ a, i = .push a ∨ i = .call a → ∃ w, t.reg 7 = some w ∧ w.toNat + 1 = sp.toNat) ∧
    (∀ a, i = .ret ∨ (i = .pop a ∧ a ≠ 7) → ∃ w, t.reg 7 = some w ∧ w.toNat = sp.toNat + 1)

/-- LDI followed by PRN of the same register emits the immediate, for every register and value (W1, first property). -/
def Obligations.LdiThenPrnEmitsTheImmediate : Prop :=
  ∀ (s : State) (a imm : Byte), a.toNat < 8 →
    ∃ t u, exec (.ldi a imm) s = .next t ∧ exec (.prn a) t = .next u ∧ u.output = s.output ++ [imm]

/-! ### Host interface, reset and invariants -/

/-- The host reads the state back exactly when the block takes no more steps, and reads it as it is (R30, R47, R77). -/
def Obligations.HostReadsTheStateOnlyAfterTheRun : Prop :=
  ∀ s : State,
    (s.readBack = none ↔ ∃ t, step s = .next t) ∧ (∀ u, s.readBack = some u → u = s)

/-- The state after reset and load, letter for letter (R31, R118), for every `SP_INIT` and every image that fits; a longer
image is refused. With an empty image the first fetch raises `UndefinedValue(memory 0)`. -/
def Obligations.ResetAndLoadAsRule31 : Prop :=
  ∀ (sp : Byte) (image : List Byte),
    (256 < image.length → (State.resetUndefined sp).loadImage image = none) ∧
    (image.length ≤ 256 → ∃ s, (State.resetUndefined sp).loadImage image = some s ∧
      s.pc = 0 ∧ s.status = .running ∧ s.reg 7 = some sp ∧ (∀ r : Byte, r ≠ 7 → s.reg r = none) ∧
      s.flags = { E := none, L := none, G := none } ∧ s.output = [] ∧
      (∀ n (h : n < image.length), s.mem.read n = some image[n]) ∧
      (∀ n, image.length ≤ n → s.mem.read n = none) ∧
      (image = [] → StepRaises s (.undefinedValue (.memory 0))))

/-- After reset SP holds `SP_INIT`, for every value of it, and with `SP_INIT = 0` the first push faults (R17), here as the
first instruction after reset and load. -/
def Obligations.SpInitIsTheFirstStackPointer : Prop :=
  (∀ sp : Byte, (State.resetUndefined sp).reg 7 = some sp) ∧
  ∀ (r : Byte) (rest : List Byte) (s : State), r.toNat < 8 →
    (State.resetUndefined 0).loadImage (0x45 :: r :: rest) = some s → StepRaises s (.addressOutOfRange (-1))

/-- THE MODEL'S CHOICE (log entry 1): the one reset state of the host's interface. PC, status, memory and output are rule
R31's; R0..R6 at 0, the flags at 0 and SP at 0xF4 are presumed values, since rule R31 states none. -/
def Obligations.HostResetHoldsTheLoggedValues : Prop :=
  State.reset.pc = 0 ∧ State.reset.status = .running ∧ State.reset.output = [] ∧
  (∀ n, State.reset.mem.read n = none) ∧
  (∀ r : Byte, r.toNat < 7 → State.reset.reg r = some 0) ∧ State.reset.reg 7 = some 0xF4 ∧
  State.reset.flags = { E := some false, L := some false, G := some false }

/-- The invariant holds after every reset and load: memory canonical, PC within 0..258, status legal (R18, R31, R118). -/
def Obligations.InvariantAfterResetAndLoad : Prop :=
  State.reset.Inv ∧
  ∀ (sp : Byte) (image : List Byte) (s : State),
    (State.resetUndefined sp).loadImage image = some s ∨ (State.resetWith sp).loadImage image = some s → s.Inv

/-- Every step keeps the invariant: memory stays canonical within 0..255, the PC stays within 0..258, HALT leaves it one
past an address, and a fault record is one of rule R99's with the PC of the faulting instruction (R18, R26, R32, R99). -/
def Obligations.EveryStepKeepsTheInvariant : Prop :=
  ∀ s t : State, s.Inv → step s = .next t → t.Inv
end

