-- ==== Sys2Proof/Laws/State.lean ====
section
/-! SUPPORT. What each named update of the state leaves alone and what it sets: one lemma per field per update. -/

namespace Sys2Proof.Machine

section advance
variable (s : State) (n : Nat)

@[simp] theorem State.advance_regs : (s.advance n).regs = s.regs := rfl
@[simp] theorem State.advance_reg (i : Byte) : (s.advance n).reg i = s.reg i := rfl
@[simp] theorem State.advance_flags : (s.advance n).flags = s.flags := rfl
@[simp] theorem State.advance_pc : (s.advance n).pc = s.pc + BitVec.ofNat 9 n := rfl
@[simp] theorem State.advance_status : (s.advance n).status = s.status := rfl
@[simp] theorem State.advance_mem : (s.advance n).mem = s.mem := rfl
@[simp] theorem State.advance_output : (s.advance n).output = s.output := rfl

end advance

section jumpTo
variable (s : State) (b : Byte)

@[simp] theorem State.jumpTo_regs : (s.jumpTo b).regs = s.regs := rfl
@[simp] theorem State.jumpTo_reg (i : Byte) : (s.jumpTo b).reg i = s.reg i := rfl
@[simp] theorem State.jumpTo_flags : (s.jumpTo b).flags = s.flags := rfl
@[simp] theorem State.jumpTo_pc : (s.jumpTo b).pc = b.setWidth 9 := rfl
@[simp] theorem State.jumpTo_status : (s.jumpTo b).status = s.status := rfl
@[simp] theorem State.jumpTo_mem : (s.jumpTo b).mem = s.mem := rfl
@[simp] theorem State.jumpTo_output : (s.jumpTo b).output = s.output := rfl

end jumpTo

section emit
variable (s : State) (v : Byte)

@[simp] theorem State.emit_regs : (s.emit v).regs = s.regs := rfl
@[simp] theorem State.emit_reg (i : Byte) : (s.emit v).reg i = s.reg i := rfl
@[simp] theorem State.emit_flags : (s.emit v).flags = s.flags := rfl
@[simp] theorem State.emit_pc : (s.emit v).pc = s.pc := rfl
@[simp] theorem State.emit_status : (s.emit v).status = s.status := rfl
@[simp] theorem State.emit_mem : (s.emit v).mem = s.mem := rfl
@[simp] theorem State.emit_output : (s.emit v).output = s.output ++ [v] := rfl

end emit

section takeFault
variable (c : FaultCause) (s : State)

@[simp] theorem takeFault_regs : (takeFault c s).regs = s.regs := rfl
@[simp] theorem takeFault_reg (i : Byte) : (takeFault c s).reg i = s.reg i := rfl
@[simp] theorem takeFault_flags : (takeFault c s).flags = s.flags := rfl
@[simp] theorem takeFault_pc : (takeFault c s).pc = s.pc := rfl
@[simp] theorem takeFault_status : (takeFault c s).status = .faulted { cause := c, pc := s.pc } := rfl
@[simp] theorem takeFault_mem : (takeFault c s).mem = s.mem := rfl
@[simp] theorem takeFault_output : (takeFault c s).output = s.output := rfl

end takeFault

section setReg
variable (s : State) (i v : Byte)

@[simp] theorem State.setReg_flags : (s.setReg i v).flags = s.flags := by unfold State.setReg; split <;> rfl
@[simp] theorem State.setReg_pc : (s.setReg i v).pc = s.pc := by unfold State.setReg; split <;> rfl
@[simp] theorem State.setReg_status : (s.setReg i v).status = s.status := by unfold State.setReg; split <;> rfl
@[simp] theorem State.setReg_mem : (s.setReg i v).mem = s.mem := by unfold State.setReg; split <;> rfl
@[simp] theorem State.setReg_output : (s.setReg i v).output = s.output := by unfold State.setReg; split <;> rfl

/-- A register reads as last written. -/
theorem State.reg_setReg_same {i : Byte} (hi : i.toNat < 8) : (s.setReg i v).reg i = some v := by
  simp [State.setReg, State.reg, hi]

/-- SP reads as last written. -/
@[simp] theorem State.reg_setReg_sp : (s.setReg 7#8 v).reg 7#8 = some v := s.reg_setReg_same v (by decide)

/-- A write of one register leaves every other one alone. -/
theorem State.reg_setReg_other {i j : Byte} (h : j ≠ i) : (s.setReg i v).reg j = s.reg j := by
  have hne : i.toNat ≠ j.toNat := fun e => h (BitVec.eq_of_toNat_eq e).symm
  unfold State.setReg State.reg
  split
  · split
    · simp [hne]
    · rfl
  · rfl

/-- Reading any register after writing one. -/
theorem State.reg_setReg {i : Byte} (hi : i.toNat < 8) (j : Byte) :
    (s.setReg i v).reg j = if j = i then some v else s.reg j := by
  split
  · next h => subst h; exact s.reg_setReg_same v hi
  · next h => exact s.reg_setReg_other v h

end setReg

section fields
variable (s : State)

@[simp] theorem State.reg_with_mem (m : Memory) (i : Byte) : State.reg { s with mem := m } i = s.reg i := rfl
@[simp] theorem State.reg_with_flags (f : Flags) (i : Byte) : State.reg { s with flags := f } i = s.reg i := rfl
@[simp] theorem State.reg_with_status (x : Status) (i : Byte) : State.reg { s with status := x } i = s.reg i := rfl

/-- Only R0..R7 hold anything. -/
theorem State.reg_lt {s : State} {i v : Byte} (h : s.reg i = some v) : i.toNat < 8 := by
  unfold State.reg at h
  split at h
  · assumption
  · cases h

@[simp] theorem State.forgetLG_reg (i : Byte) : s.forgetLG.reg i = s.reg i := rfl
@[simp] theorem State.forgetLG_mem : s.forgetLG.mem = s.mem := rfl
@[simp] theorem State.forgetLG_pc : s.forgetLG.pc = s.pc := rfl
@[simp] theorem State.forgetLG_status : s.forgetLG.status = s.status := rfl
@[simp] theorem State.forgetLG_output : s.forgetLG.output = s.output := rfl
@[simp] theorem State.forgetLG_E : s.forgetLG.flags.E = s.flags.E := rfl

end fields

end Sys2Proof.Machine
end

