-- ==== Sys2Proof/Laws/Memory.lean ====
section
/-! SUPPORT. The laws of the memory array: read after write, and that every operation keeps the canonical form. -/

namespace Sys2Proof.Machine

/-- A read after a write: the written cell gives the value, every other cell what it gave (rule R33). -/
theorem Memory.read_write (m : Memory) (a : Nat) (v : Byte) (b : Nat) :
    (m.write a v).read b = if b = a then some v else m.read b := by
  induction m with
  | nil => simp [Memory.write, Memory.read]
  | cons c m ih =>
    obtain ⟨k, w⟩ := c
    unfold Memory.write
    split
    · simp only [Memory.read]
    · split
      · subst_vars
        simp only [Memory.read]
        split <;> simp_all
      · simp only [Memory.read, ih]
        split <;> split <;> simp_all

/-- The cells of a written array: the new one and old ones. -/
theorem Memory.mem_write {m : Memory} {a : Nat} {v : Byte} {c : Host.Cell} (h : c ∈ m.write a v) :
    c = (a, v) ∨ c ∈ m := by
  induction m with
  | nil => simpa [Memory.write] using h
  | cons d m ih =>
    obtain ⟨k, w⟩ := d
    unfold Memory.write at h
    split at h
    · simpa using h
    · split at h
      · simp only [List.mem_cons] at h ⊢
        tauto
      · simp only [List.mem_cons] at h ⊢
        rcases h with h | h
        · exact .inr (.inl h)
        · exact (ih h).imp id .inr

/-- A write to an address of the array keeps the canonical form. -/
theorem Memory.write_wf {m : Memory} {a : Nat} {v : Byte} (hm : m.wf) (ha : a < 256) : (m.write a v).wf := by
  refine ⟨?_, fun c hc => ?_⟩
  · have hp := hm.1
    clear hm
    induction m with
    | nil => simp [Memory.write]
    | cons d m ih =>
      obtain ⟨k, w⟩ := d
      obtain ⟨hd, ht⟩ := List.pairwise_cons.mp hp
      unfold Memory.write
      split
      · next hlt =>
        refine List.pairwise_cons.mpr ⟨fun c hc => ?_, hp⟩
        rcases List.mem_cons.mp hc with rfl | hc
        · exact hlt
        · exact hlt.trans (hd c hc)
      · split
        · next heq => subst heq; exact List.pairwise_cons.mpr ⟨hd, ht⟩
        · refine List.pairwise_cons.mpr ⟨fun c hc => ?_, ih ht⟩
          rcases Memory.mem_write hc with rfl | hc
          · simp only; omega
          · exact hd c hc
  · rcases Memory.mem_write hc with rfl | hc
    · exact ha
    · exact hm.2 c hc

/-- Placing bytes keeps the canonical form. -/
theorem Memory.writeAll_wf {m : Memory} (hm : m.wf) (a : Nat) (vs : List Byte) : (m.writeAll a vs).wf := by
  induction vs generalizing m a with
  | nil => exact hm
  | cons v vs ih =>
    unfold Memory.writeAll
    split
    · next h => exact ih (Memory.write_wf hm h) _
    · exact ih hm _

/-- An address below the place where bytes are put keeps its value. -/
theorem Memory.read_writeAll_below (m : Memory) {a b : Nat} (vs : List Byte) (h : b < a) :
    (m.writeAll a vs).read b = m.read b := by
  induction vs generalizing m a with
  | nil => rfl
  | cons v vs ih =>
    unfold Memory.writeAll
    rw [ih _ (by omega)]
    split
    · rw [Memory.read_write, if_neg (by omega)]
    · rfl

/-- Placed bytes are read back, and every other address reads as before. -/
theorem Memory.read_writeAll (m : Memory) (a b : Nat) (vs : List Byte) :
    (m.writeAll a vs).read b =
      if h : a ≤ b ∧ b < a + vs.length ∧ b < 256 then some vs[b - a] else m.read b := by
  induction vs generalizing m a with
  | nil =>
    rw [dif_neg (by simp only [List.length_nil]; omega)]
    rfl
  | cons v vs ih =>
    unfold Memory.writeAll
    rw [ih]
    by_cases hb : b = a
    · subst hb
      rw [dif_neg (by omega)]
      by_cases hm : b < 256
      · simp [Config.memSize, hm, Memory.read_write]
      · simp [Config.memSize, hm]
    · by_cases hr : a + 1 ≤ b ∧ b < a + 1 + vs.length ∧ b < 256
      · have hr' : a ≤ b ∧ b < a + (v :: vs).length ∧ b < 256 := by simp only [List.length_cons]; omega
        rw [dif_pos hr, dif_pos hr']
        have : b - a = (b - (a + 1)) + 1 := by omega
        simp [this]
      · have hr' : ¬ (a ≤ b ∧ b < a + (v :: vs).length ∧ b < 256) := by simp only [List.length_cons]; omega
        rw [dif_neg hr, dif_neg hr']
        split
        · rw [Memory.read_write, if_neg hb]
        · rfl

/-- The reset memory is in canonical form. -/
theorem State.resetWith_mem_wf (sp : Byte) : (State.resetWith sp).mem.wf := by
  simp [State.resetWith, State.resetUndefined, Memory.wf]

/-- The memory of `State.reset` is in canonical form. -/
theorem State.reset_mem_wf : State.reset.mem.wf := State.resetWith_mem_wf _

/-- The addresses of the array are 0..255 (rule R32). -/
theorem isAddress_iff {a : Int} : isAddress a = true ↔ 0 ≤ a ∧ a < 256 := by
  simp only [isAddress, Bool.and_eq_true, decide_eq_true_eq]
  exact Iff.rfl

/-- A checked write keeps the canonical form. -/
theorem writeMem_wf {s t : State} {a : Int} {v : Byte} (hs : s.mem.wf) (h : writeMem s a v = .ok t) : t.mem.wf := by
  unfold writeMem at h
  split at h
  · next ha =>
    cases h
    have := isAddress_iff.mp ha
    exact Memory.write_wf hs (by omega)
  · cases h

/-- Loading an image keeps the canonical form. -/
theorem State.loadImage_wf {s t : State} {img : List Byte} (hs : s.mem.wf) (h : s.loadImage img = some t) :
    t.mem.wf := by
  unfold State.loadImage at h
  split at h
  · cases h; exact Memory.writeAll_wf hs 0 img
  · cases h

/-- Placing a table word at the PC keeps the canonical form. -/
theorem State.withFetchWord_wf {s : State} (nbits w : Nat) (hs : s.mem.wf) : (s.withFetchWord nbits w).mem.wf :=
  Memory.writeAll_wf hs _ _

end Sys2Proof.Machine
end

