-- ==== Sys2Proof/Laws/Ops.lean ====
section
/-! SUPPORT. What each shared operation can do, said once: when it completes and with what, and which faults it raises. -/

namespace Sys2Proof.Machine

/-- A sequence of checked computations completes when both parts do. -/
theorem bind_ok_iff {ε α β : Type} {x : Except ε α} {f : α → Except ε β} {b : β} :
    (x >>= f) = .ok b ↔ ∃ a, x = .ok a ∧ f a = .ok b := by
  cases x <;> simp [bind, Except.bind]

/-- A sequence of checked computations faults in its first part or in its second. -/
theorem bind_error_iff {ε α β : Type} {x : Except ε α} {f : α → Except ε β} {e : ε} :
    (x >>= f) = .error e ↔ x = .error e ∨ ∃ a, x = .ok a ∧ f a = .error e := by
  cases x <;> simp [bind, Except.bind]

theorem isRegIndex_iff {r : Byte} : isRegIndex r = true ↔ r.toNat < 8 := by
  simp only [isRegIndex, decide_eq_true_eq]
  exact Iff.rfl

/-- A byte is an address of the array. -/
theorem isAddress_byte (b : Byte) : isAddress (b.toNat : Int) = true := by
  rw [isAddress_iff]; have := b.isLt; omega

section registers
variable {s t : State} {i v : Byte} {c : FaultCause}

/-- A register read completes exactly when the register holds a value. -/
theorem readReg_ok_iff : readReg s i = .ok v ↔ s.reg i = some v := by
  unfold readReg
  constructor
  · intro h
    split at h
    · split at h
      · cases h
      · cases h; assumption
    · cases h
  · intro h
    rw [if_pos (isRegIndex_iff.mpr (State.reg_lt h)), h]

/-- A register read faults on an index of 8 or more and on `⊥`. -/
theorem readReg_error_iff : readReg s i = .error c ↔
    (c = .registerIndexOutOfRange i ∧ 8 ≤ i.toNat) ∨
    (c = .undefinedValue (.register i) ∧ i.toNat < 8 ∧ s.reg i = none) := by
  unfold readReg
  by_cases hi : i.toNat < 8
  · rw [if_pos (isRegIndex_iff.mpr hi)]
    cases hr : s.reg i <;> simp [hi, eq_comm]
  · rw [if_neg (fun h => hi (isRegIndex_iff.mp h))]
    simp only [Except.error.injEq, hi, false_and, and_false, or_false]
    exact ⟨fun h => ⟨h.symm, by omega⟩, fun h => h.1.symm⟩

theorem writeReg_ok_iff : writeReg s i v = .ok t ↔ i.toNat < 8 ∧ t = s.setReg i v := by
  unfold writeReg
  by_cases hi : i.toNat < 8
  · simp [isRegIndex_iff.mpr hi, hi, eq_comm]
  · simp [show isRegIndex i = false from Bool.eq_false_iff.mpr (fun h => hi (isRegIndex_iff.mp h)), hi]

theorem writeReg_error_iff : writeReg s i v = .error c ↔ c = .registerIndexOutOfRange i ∧ 8 ≤ i.toNat := by
  unfold writeReg
  by_cases hi : i.toNat < 8
  · simp [isRegIndex_iff.mpr hi]; omega
  · simp [show isRegIndex i = false from Bool.eq_false_iff.mpr (fun h => hi (isRegIndex_iff.mp h)), eq_comm]; omega

theorem readFlag_ok_iff {f : FlagName} {b : Bool} : readFlag s f = .ok b ↔ s.flags.get f = some b := by
  unfold readFlag; cases s.flags.get f <;> simp

theorem readFlag_error_iff {f : FlagName} :
    readFlag s f = .error c ↔ c = .undefinedValue (.flag f) ∧ s.flags.get f = none := by
  unfold readFlag; cases s.flags.get f <;> simp [eq_comm]

end registers

section memory
variable {s t : State} {a : Int} {v : Byte} {c : FaultCause}

theorem readMem_ok_iff : readMem s a = .ok v ↔ (0 ≤ a ∧ a < 256) ∧ s.mem.read a.toNat = some v := by
  unfold readMem
  by_cases ha : 0 ≤ a ∧ a < 256
  · rw [if_pos (isAddress_iff.mpr ha)]
    cases s.mem.read a.toNat <;> simp [ha]
  · rw [if_neg (fun h => ha (isAddress_iff.mp h))]
    simp [ha]

theorem readMem_error_iff : readMem s a = .error c ↔
    (c = .addressOutOfRange a ∧ ¬ (0 ≤ a ∧ a < 256)) ∨
    (c = .undefinedValue (.memory a.toNat) ∧ (0 ≤ a ∧ a < 256) ∧ s.mem.read a.toNat = none) := by
  unfold readMem
  by_cases ha : 0 ≤ a ∧ a < 256
  · rw [if_pos (isAddress_iff.mpr ha)]
    cases s.mem.read a.toNat <;> simp [ha, eq_comm]
  · rw [if_neg (fun h => ha (isAddress_iff.mp h))]
    simp [ha, eq_comm]

theorem writeMem_ok_iff : writeMem s a v = .ok t ↔
    (0 ≤ a ∧ a < 256) ∧ t = { s with mem := s.mem.write a.toNat v } := by
  unfold writeMem
  by_cases ha : 0 ≤ a ∧ a < 256
  · rw [if_pos (isAddress_iff.mpr ha)]
    simp [ha, eq_comm]
  · rw [if_neg (fun h => ha (isAddress_iff.mp h))]
    simp [ha]

theorem writeMem_error_iff : writeMem s a v = .error c ↔ c = .addressOutOfRange a ∧ ¬ (0 ≤ a ∧ a < 256) := by
  unfold writeMem
  by_cases ha : 0 ≤ a ∧ a < 256
  · rw [if_pos (isAddress_iff.mpr ha)]
    simp [ha]
  · rw [if_neg (fun h => ha (isAddress_iff.mp h))]
    simp [ha, eq_comm]

/-- A read depends on the memory alone. -/
theorem readMem_congr (h : t.mem = s.mem) (a : Int) : readMem t a = readMem s a := by
  unfold readMem; rw [h]

/-- Reading after a write of one address (rule R33). -/
theorem readMem_write_other {m : Memory} {n : Nat} {a : Int} (hm : t.mem = m.write n v) (hs : s.mem = m)
    (hne : a ≠ (n : Int)) : readMem t a = readMem s a := by
  unfold readMem
  split
  · next ha =>
    have := isAddress_iff.mp ha
    rw [hm, hs, Memory.read_write, if_neg (by omega)]
  · rfl

/-- Reading the written address. -/
theorem readMem_write_same {m : Memory} {n : Nat} (hm : t.mem = m.write n v) (hn : n < 256) :
    readMem t (n : Int) = .ok v := by
  rw [readMem_ok_iff, hm, Memory.read_write]
  simp; omega

end memory

section stack
variable {s t : State} {v : Byte} {c : FaultCause}

theorem byte_pred {sp : Byte} (_ : sp.toNat ≠ 0) : BitVec.ofInt 8 ((sp.toNat : Int) - 1) = sp - 1 := by
  apply BitVec.eq_of_toNat_eq
  have := sp.isLt
  rw [BitVec.toNat_ofInt, BitVec.toNat_sub]
  have h1 : (1 : Byte).toNat = 1 := rfl
  omega

theorem byte_succ (sp : Byte) : BitVec.ofInt 8 ((sp.toNat : Int) + 1) = sp + 1 := by
  apply BitVec.eq_of_toNat_eq
  have := sp.isLt
  rw [BitVec.toNat_ofInt, BitVec.toNat_add]
  have h1 : (1 : Byte).toNat = 1 := rfl
  omega

theorem byte_pred_toNat {sp : Byte} (h : sp.toNat ≠ 0) : (sp - 1).toNat = sp.toNat - 1 := by
  have := sp.isLt
  rw [BitVec.toNat_sub]
  have h1 : (1 : Byte).toNat = 1 := rfl
  omega

theorem byte_succ_toNat {sp : Byte} (h : sp.toNat ≠ 255) : (sp + 1).toNat = sp.toNat + 1 := by
  have := sp.isLt
  rw [BitVec.toNat_add]
  have h1 : (1 : Byte).toNat = 1 := rfl
  omega

/-- A push moves SP down by one, unless SP is 0 (rule R16). -/
theorem decSP_ok_iff {p : Byte × State} : decSP s = .ok p ↔
    ∃ sp, s.reg 7 = some sp ∧ sp.toNat ≠ 0 ∧ p = (sp - 1, s.setReg 7 (sp - 1)) := by
  unfold decSP
  simp only [bind_ok_iff, Config.spIndex, readReg_ok_iff]
  refine exists_congr fun sp => and_congr_right fun _ => ?_
  by_cases h0 : sp.toNat = 0
  · simp [h0]
  · rw [if_neg (by omega), byte_pred h0]
    simp only [bind_ok_iff, writeReg_ok_iff, pure, Except.pure, Except.ok.injEq]
    constructor
    · rintro ⟨t, ⟨_, rfl⟩, rfl⟩; exact ⟨h0, rfl⟩
    · rintro ⟨_, rfl⟩; exact ⟨_, ⟨by decide, rfl⟩, rfl⟩

/-- A push faults on SP = 0, with the value -1, and on an SP that holds `⊥`. -/
theorem decSP_error_iff : decSP s = .error c ↔
    (c = .undefinedValue (.register 7) ∧ s.reg 7 = none) ∨
    (c = .addressOutOfRange (-1) ∧ ∃ sp, s.reg 7 = some sp ∧ sp.toNat = 0) := by
  unfold decSP
  simp only [bind_error_iff, Config.spIndex, readReg_ok_iff, readReg_error_iff]
  refine or_congr (by simp) ?_
  constructor
  · rintro ⟨sp, hsp, h⟩
    split at h
    · have : sp.toNat = 0 := by omega
      simp only [Except.error.injEq] at h
      exact ⟨by rw [← h, this]; rfl, sp, hsp, this⟩
    · simp [bind_error_iff, writeReg_error_iff, pure, Except.pure] at h
  · rintro ⟨rfl, sp, hsp, h0⟩
    exact ⟨sp, hsp, by simp [h0]⟩

/-- A pop moves SP up by one, unless SP is 255 (rule R16). -/
theorem incSP_ok_iff : incSP s = .ok t ↔
    ∃ sp, s.reg 7 = some sp ∧ sp.toNat ≠ 255 ∧ t = s.setReg 7 (sp + 1) := by
  unfold incSP
  simp only [bind_ok_iff, Config.spIndex, readReg_ok_iff]
  refine exists_congr fun sp => and_congr_right fun _ => ?_
  have := sp.isLt
  by_cases h0 : sp.toNat = 255
  · simp [h0]
  · rw [if_neg (by omega), byte_succ, writeReg_ok_iff]
    simp [h0]

/-- A pop faults on SP = 255, with the value 256, and on an SP that holds `⊥`. -/
theorem incSP_error_iff : incSP s = .error c ↔
    (c = .undefinedValue (.register 7) ∧ s.reg 7 = none) ∨
    (c = .addressOutOfRange 256 ∧ ∃ sp, s.reg 7 = some sp ∧ sp.toNat = 255) := by
  unfold incSP
  simp only [bind_error_iff, Config.spIndex, readReg_ok_iff, readReg_error_iff]
  refine or_congr (by simp) ?_
  constructor
  · rintro ⟨sp, hsp, h⟩
    have := sp.isLt
    split at h
    · have : sp.toNat = 255 := by omega
      simp only [Except.error.injEq] at h
      exact ⟨by rw [← h, this]; rfl, sp, hsp, this⟩
    · simp [writeReg_error_iff] at h
  · rintro ⟨rfl, sp, hsp, h0⟩
    exact ⟨sp, hsp, by simp [h0]⟩

theorem readTop_ok_iff : readTop s = .ok v ↔ ∃ sp, s.reg 7 = some sp ∧ s.mem.read sp.toNat = some v := by
  unfold readTop
  simp only [bind_ok_iff, Config.spIndex, readReg_ok_iff, readMem_ok_iff, Int.toNat_natCast]
  refine exists_congr fun sp => and_congr_right fun _ => ?_
  have := sp.isLt
  exact ⟨fun h => h.2, fun h => ⟨by omega, h⟩⟩

theorem readTop_error_iff : readTop s = .error c ↔
    (c = .undefinedValue (.register 7) ∧ s.reg 7 = none) ∨
    (∃ sp, s.reg 7 = some sp ∧ s.mem.read sp.toNat = none ∧ c = .undefinedValue (.memory sp.toNat)) := by
  unfold readTop
  simp only [bind_error_iff, Config.spIndex, readReg_ok_iff, readReg_error_iff, readMem_error_iff, Int.toNat_natCast]
  refine or_congr (by simp) (exists_congr fun sp => and_congr_right fun _ => ?_)
  have := sp.isLt
  constructor
  · rintro (⟨_, h⟩ | ⟨h, _, h'⟩)
    · omega
    · exact ⟨h', h⟩
  · rintro ⟨h', h⟩; exact .inr ⟨h, by omega, h'⟩

end stack

/-- A committed handler answers a next state always: its own result, or the fault it raised. -/
theorem commit_next_iff {s t : State} {r : Except FaultCause State} : commit s r = .next t ↔
    r = .ok t ∨ ∃ c, r = .error c ∧ t = takeFault c s := by
  unfold commit; cases r <;> simp [eq_comm]

end Sys2Proof.Machine
end

