-- ==== Sys2Proof/Laws/Decode.lean ====
section
/-! SUPPORT. The decoder: the table lookup, when decoding gives an instruction, and what it rejects. -/

namespace Sys2Proof

open Sys2Proof.Machine (bind_ok_iff bind_error_iff isRegIndex_iff)

/-- The lookup finds an operation exactly under its opcode byte. -/
theorem lookupOpcode_some_iff {b : Byte} {o : Op} : lookupOpcode b = some o ↔ o.opcode = b := by
  constructor
  · intro h
    simpa using List.find?_some h
  · rintro rfl
    cases o <;> rfl

/-- The lookup fails exactly on the bytes that are no operation's opcode. -/
theorem lookupOpcode_none_iff {b : Byte} : lookupOpcode b = none ↔ ∀ o : Op, o.opcode ≠ b := by
  rw [Option.eq_none_iff_forall_ne_some]
  exact forall_congr' fun o => not_congr lookupOpcode_some_iff

section
variable {ε : Type} {reject : Reject → ε} {read : Nat → Except ε Byte} {e : ε} {i : Instr} {r : Byte}

theorem checkReg_ok_iff {u : Unit} : checkReg reject r = .ok u ↔ isRegIndex r = true := by
  unfold checkReg; cases isRegIndex r <;> simp

theorem checkReg_error_iff :
    checkReg reject r = .error e ↔ isRegIndex r = false ∧ e = reject (.registerIndexOutOfRange r) := by
  unfold checkReg; cases isRegIndex r <;> simp [eq_comm]

theorem decodeR_ok_iff {mk : Byte → Instr} : decodeR read reject mk = .ok i ↔
    ∃ a, read 1 = .ok a ∧ isRegIndex a = true ∧ i = mk a := by
  simp [decodeR, bind_ok_iff, checkReg_ok_iff, pure, Except.pure, @eq_comm _ i]

theorem decodeRR_ok_iff {mk : Byte → Byte → Instr} : decodeRR read reject mk = .ok i ↔
    ∃ a b, read 1 = .ok a ∧ read 2 = .ok b ∧ isRegIndex a = true ∧ isRegIndex b = true ∧ i = mk a b := by
  simp [decodeRR, bind_ok_iff, checkReg_ok_iff, pure, Except.pure, @eq_comm _ i]

theorem decodeRI_ok_iff {mk : Byte → Byte → Instr} : decodeRI read reject mk = .ok i ↔
    ∃ a b, read 1 = .ok a ∧ read 2 = .ok b ∧ isRegIndex a = true ∧ i = mk a b := by
  simp [decodeRI, bind_ok_iff, checkReg_ok_iff, pure, Except.pure, @eq_comm _ i]

theorem decodeR_error_iff {mk : Byte → Instr} : decodeR read reject mk = .error e ↔
    read 1 = .error e ∨
    ∃ a, read 1 = .ok a ∧ isRegIndex a = false ∧ e = reject (.registerIndexOutOfRange a) := by
  simp [decodeR, bind_error_iff, checkReg_error_iff, pure, Except.pure]

theorem decodeRR_error_iff {mk : Byte → Byte → Instr} : decodeRR read reject mk = .error e ↔
    read 1 = .error e ∨ ∃ a, read 1 = .ok a ∧ (read 2 = .error e ∨ ∃ b, read 2 = .ok b ∧
      ((isRegIndex a = false ∧ e = reject (.registerIndexOutOfRange a)) ∨
       (isRegIndex a = true ∧ isRegIndex b = false ∧ e = reject (.registerIndexOutOfRange b)))) := by
  simp [decodeRR, bind_error_iff, checkReg_error_iff, checkReg_ok_iff, pure, Except.pure]

theorem decodeRI_error_iff {mk : Byte → Byte → Instr} : decodeRI read reject mk = .error e ↔
    read 1 = .error e ∨ ∃ a, read 1 = .ok a ∧ (read 2 = .error e ∨ ∃ b, read 2 = .ok b ∧
      isRegIndex a = false ∧ e = reject (.registerIndexOutOfRange a)) := by
  simp [decodeRI, bind_error_iff, checkReg_error_iff, pure, Except.pure]

theorem decodeFrom_ok_iff_op : decodeFrom read reject = .ok i ↔
    ∃ o, read 0 = .ok (Op.opcode o) ∧ decodeOp read reject o = .ok i := by
  simp only [decodeFrom, bind_ok_iff]
  constructor
  · rintro ⟨b, hb, h⟩
    split at h
    · cases h
    · next o ho => exact ⟨o, lookupOpcode_some_iff.mp ho ▸ hb, h⟩
  · rintro ⟨o, hb, h⟩
    exact ⟨_, hb, by rw [lookupOpcode_some_iff.mpr rfl]; exact h⟩

theorem decodeFrom_error_iff : decodeFrom read reject = .error e ↔
    read 0 = .error e ∨
    (∃ b, read 0 = .ok b ∧ lookupOpcode b = none ∧ e = reject (.unknownOpcode b)) ∨
    (∃ o, read 0 = .ok (Op.opcode o) ∧ decodeOp read reject o = .error e) := by
  simp only [decodeFrom, bind_error_iff]
  refine or_congr Iff.rfl ?_
  constructor
  · rintro ⟨b, hb, h⟩
    split at h
    · next hn => exact .inl ⟨b, hb, hn, by simpa [eq_comm] using h⟩
    · next o ho => exact .inr ⟨o, lookupOpcode_some_iff.mp ho ▸ hb, h⟩
  · rintro (⟨b, hb, hn, rfl⟩ | ⟨o, hb, h⟩)
    · exact ⟨b, hb, by rw [hn]⟩
    · exact ⟨_, hb, by rw [lookupOpcode_some_iff.mpr rfl]; exact h⟩

/-- The decoder gives a well-formed instruction, and only from a source that holds that instruction's encoding. -/
theorem decodeFrom_ok_reads (h : decodeFrom read reject = .ok i) :
    i.wf = true ∧ ∀ n (hn : n < (encode i).length), read n = .ok (encode i)[n] := by
  obtain ⟨o, h0, h⟩ := decodeFrom_ok_iff_op.mp h
  cases o <;> simp only [decodeOp, decodeR_ok_iff, decodeRR_ok_iff, decodeRI_ok_iff, Except.ok.injEq] at h
  case halt | ret =>
    subst h
    refine ⟨rfl, fun n hn => ?_⟩
    obtain rfl : n = 0 := by simpa [encode, Instr.operandBytes] using hn
    exact h0
  case push | pop | prn | call | jmp | jeq | jne =>
    obtain ⟨a, h1, ha, rfl⟩ := h
    refine ⟨by simp [Instr.wf, Instr.regOperands, ha], fun n hn => ?_⟩
    have : n < 2 := by simpa [encode, Instr.operandBytes] using hn
    interval_cases n <;> assumption
  case ldi =>
    obtain ⟨a, b, h1, h2, ha, rfl⟩ := h
    refine ⟨by simp [Instr.wf, Instr.regOperands, ha], fun n hn => ?_⟩
    have : n < 3 := by simpa [encode, Instr.operandBytes] using hn
    interval_cases n <;> assumption
  case add | mul | cmp =>
    obtain ⟨a, b, h1, h2, ha, hb, rfl⟩ := h
    refine ⟨by simp [Instr.wf, Instr.regOperands, ha, hb], fun n hn => ?_⟩
    have : n < 3 := by simpa [encode, Instr.operandBytes] using hn
    interval_cases n <;> assumption

/-- From a source that holds a well-formed instruction's encoding, the decoder gives that instruction. -/
theorem decodeFrom_of_reads (hw : i.wf = true)
    (h : ∀ n (hn : n < (encode i).length), read n = .ok (encode i)[n]) : decodeFrom read reject = .ok i := by
  refine decodeFrom_ok_iff_op.mpr ⟨i.op, h 0 (Nat.zero_lt_succ _), ?_⟩
  cases i <;> simp only [Instr.op, decodeOp, decodeR_ok_iff, decodeRR_ok_iff, decodeRI_ok_iff] <;>
    simp only [Instr.wf, Instr.regOperands, List.all_cons, List.all_nil, Bool.and_true, Bool.and_eq_true] at hw
  case push a | pop a | prn a | call a | jmp a | jeq a | jne a => exact ⟨a, h 1 (by simp [encode, Instr.operandBytes]), hw, rfl⟩
  case ldi a b => exact ⟨a, b, h 1 (by simp [encode, Instr.operandBytes]), h 2 (by simp [encode, Instr.operandBytes]), hw, rfl⟩
  case add a b | mul a b | cmp a b =>
    exact ⟨a, b, h 1 (by simp [encode, Instr.operandBytes]), h 2 (by simp [encode, Instr.operandBytes]), hw.1, hw.2, rfl⟩

/-- The byte source of a list. -/
theorem byteAt_ok_iff {bs : List Byte} {n : Nat} {b : Byte} : byteAt bs n = .ok b ↔ bs[n]? = some b := by
  unfold byteAt; cases bs[n]? <;> simp

/-- The encoding has the instruction's length. -/
theorem encode_length (i : Instr) : (encode i).length = i.length := by
  cases i <;> rfl

end

end Sys2Proof
end

