-- ==== Sys2Proof/Laws/Handlers.lean ====
section
/-! SUPPORT. What each handler does: when it completes and with which state, and which faults it raises. -/

namespace Sys2Proof.Machine

section
variable {s t : State} {a b v imm : Byte} {c : FaultCause}

/-- ADD completes when both registers hold values (rule R82). -/
theorem aluHandler_add_ok_iff {clear : Bool} : aluHandler clear .add a b s = .ok t ↔
    ∃ va vb, s.reg a = some va ∧ s.reg b = some vb ∧ t = (s.setReg a (aluAdd va vb)).advance 3 := by
  simp only [aluHandler, aluApply, bind_ok_iff, readReg_ok_iff, writeReg_ok_iff, pure, Except.pure, Except.ok.injEq]
  constructor
  · rintro ⟨_, ⟨va, ha, vb, hb, _, rfl⟩, rfl⟩; exact ⟨va, vb, ha, hb, rfl⟩
  · rintro ⟨va, vb, ha, hb, rfl⟩; exact ⟨_, ⟨va, ha, vb, hb, State.reg_lt ha, rfl⟩, rfl⟩

theorem aluHandler_mul_ok_iff {clear : Bool} : aluHandler clear .mul a b s = .ok t ↔
    ∃ va vb, s.reg a = some va ∧ s.reg b = some vb ∧ t = (s.setReg a (aluMul va vb)).advance 3 := by
  simp only [aluHandler, aluApply, bind_ok_iff, readReg_ok_iff, writeReg_ok_iff, pure, Except.pure, Except.ok.injEq]
  constructor
  · rintro ⟨_, ⟨va, ha, vb, hb, _, rfl⟩, rfl⟩; exact ⟨va, vb, ha, hb, rfl⟩
  · rintro ⟨va, vb, ha, hb, rfl⟩; exact ⟨_, ⟨va, ha, vb, hb, State.reg_lt ha, rfl⟩, rfl⟩

theorem aluHandler_cmp_ok_iff {clear : Bool} : aluHandler clear .cmp a b s = .ok t ↔
    ∃ va vb, s.reg a = some va ∧ s.reg b = some vb ∧
      t = State.advance { s with flags := compareFlags clear s.flags va vb } 3 := by
  simp only [aluHandler, aluApply, bind_ok_iff, readReg_ok_iff, pure, Except.pure, Except.ok.injEq]
  constructor
  · rintro ⟨_, ⟨va, ha, vb, hb, rfl⟩, rfl⟩; exact ⟨va, vb, ha, hb, rfl⟩
  · rintro ⟨va, vb, ha, hb, rfl⟩; exact ⟨_, ⟨va, ha, vb, hb, rfl⟩, rfl⟩

/-- The faults of the ALU's three instructions: register `a`, then register `b` (rules R82..R84). -/
theorem aluHandler_error_iff {clear : Bool} {op : AluOp} (hop : op = .add ∨ op = .mul ∨ op = .cmp) :
    aluHandler clear op a b s = .error c ↔
      readReg s a = .error c ∨ ∃ va, readReg s a = .ok va ∧ readReg s b = .error c := by
  have hw : ∀ {va v}, readReg s a = .ok va → writeReg s a v ≠ .error c := fun ha h => by
    have := State.reg_lt (readReg_ok_iff.mp ha)
    have := (writeReg_error_iff.mp h).2
    omega
  rcases hop with rfl | rfl | rfl <;>
    simp only [aluHandler, aluApply, bind_error_iff, pure, Except.pure, reduceCtorEq, and_false, exists_false,
      or_false] <;>
    refine or_congr Iff.rfl (exists_congr fun va => and_congr_right fun ha => ?_) <;>
    simp [hw ha]

theorem ldiHandler_ok_iff : ldiHandler a imm s = .ok t ↔ a.toNat < 8 ∧ t = (s.setReg a imm).advance 3 := by
  simp only [ldiHandler, bind_ok_iff, writeReg_ok_iff, pure, Except.pure, Except.ok.injEq]
  constructor
  · rintro ⟨_, ⟨h, rfl⟩, rfl⟩; exact ⟨h, rfl⟩
  · rintro ⟨h, rfl⟩; exact ⟨_, ⟨h, rfl⟩, rfl⟩

theorem ldiHandler_error_iff :
    ldiHandler a imm s = .error c ↔ c = .registerIndexOutOfRange a ∧ 8 ≤ a.toNat := by
  simp [ldiHandler, bind_error_iff, writeReg_error_iff, pure, Except.pure]

theorem prnHandler_ok_iff : prnHandler a s = .ok t ↔ ∃ v, s.reg a = some v ∧ t = (s.emit v).advance 2 := by
  simp only [prnHandler, bind_ok_iff, readReg_ok_iff, pure, Except.pure, Except.ok.injEq]
  exact exists_congr fun v => and_congr_right fun _ => eq_comm

theorem prnHandler_error_iff : prnHandler a s = .error c ↔ readReg s a = .error c := by
  simp [prnHandler, bind_error_iff, pure, Except.pure]

/-- PUSH completes when SP can move down and the register, read after the move, holds a value (rule R87). -/
theorem pushHandler_ok_iff : pushHandler a s = .ok t ↔
    ∃ sp v, s.reg 7 = some sp ∧ sp.toNat ≠ 0 ∧ (s.setReg 7 (sp - 1)).reg a = some v ∧
      t = State.advance { s.setReg 7 (sp - 1) with mem := s.mem.write (sp - 1).toNat v } 2 := by
  simp only [pushHandler, bind_ok_iff, readReg_ok_iff, decSP_ok_iff, writeMem_ok_iff, pure, Except.pure,
    Except.ok.injEq, Int.toNat_natCast]
  constructor
  · rintro ⟨_, ⟨sp, hsp, h0, rfl⟩, v, hv, _, ⟨_, rfl⟩, rfl⟩
    exact ⟨sp, v, hsp, h0, hv, by simp⟩
  · rintro ⟨sp, v, hsp, h0, hv, rfl⟩
    refine ⟨_, ⟨sp, hsp, h0, rfl⟩, v, hv, _, ⟨isAddress_iff.mp (isAddress_byte _), rfl⟩, by simp⟩

theorem pushHandler_error_iff : pushHandler a s = .error c ↔
    decSP s = .error c ∨
    ∃ sp, s.reg 7 = some sp ∧ sp.toNat ≠ 0 ∧ readReg (s.setReg 7 (sp - 1)) a = .error c := by
  simp only [pushHandler, bind_error_iff, decSP_ok_iff, writeMem_error_iff, pure, Except.pure, reduceCtorEq,
    and_false, exists_false, or_false, isAddress_iff.mp (isAddress_byte _), and_self, not_true]
  refine or_congr Iff.rfl ?_
  constructor
  · rintro ⟨_, ⟨sp, hsp, h0, rfl⟩, h⟩; exact ⟨sp, hsp, h0, h⟩
  · rintro ⟨sp, hsp, h0, h⟩; exact ⟨_, ⟨sp, hsp, h0, rfl⟩, h⟩

/-- POP completes when the cell at SP holds a value and SP, as the register write left it, can move up (rule R88). -/
theorem popHandler_ok_iff : popHandler a s = .ok t ↔
    ∃ sp v sp', s.reg 7 = some sp ∧ s.mem.read sp.toNat = some v ∧ a.toNat < 8 ∧
      (s.setReg a v).reg 7 = some sp' ∧ sp'.toNat ≠ 255 ∧
      t = ((s.setReg a v).setReg 7 (sp' + 1)).advance 2 := by
  simp only [popHandler, bind_ok_iff, readTop_ok_iff, writeReg_ok_iff, incSP_ok_iff, pure, Except.pure,
    Except.ok.injEq]
  constructor
  · rintro ⟨v, ⟨sp, hsp, hv⟩, _, ⟨ha, rfl⟩, _, ⟨sp', hsp', h, rfl⟩, rfl⟩
    exact ⟨sp, v, sp', hsp, hv, ha, hsp', h, rfl⟩
  · rintro ⟨sp, v, sp', hsp, hv, ha, hsp', h, rfl⟩
    exact ⟨v, ⟨sp, hsp, hv⟩, _, ⟨ha, rfl⟩, _, ⟨sp', hsp', h, rfl⟩, rfl⟩

theorem popHandler_error_iff : popHandler a s = .error c ↔
    readTop s = .error c ∨
    ∃ v, readTop s = .ok v ∧ (writeReg s a v = .error c ∨ (a.toNat < 8 ∧ incSP (s.setReg a v) = .error c)) := by
  simp only [popHandler, bind_error_iff, pure, Except.pure, reduceCtorEq, and_false, exists_false, or_false,
    writeReg_ok_iff]
  refine or_congr Iff.rfl (exists_congr fun v => and_congr_right fun _ => or_congr Iff.rfl ?_)
  constructor
  · rintro ⟨_, ⟨ha, rfl⟩, h⟩; exact ⟨ha, h⟩
  · rintro ⟨ha, h⟩; exact ⟨_, ⟨ha, rfl⟩, h⟩

/-- CALL completes when the return address fits a byte, SP can move down, and the register, read after the move, holds a
value (rule R89). -/
theorem callHandler_ok_iff : callHandler a s = .ok t ↔
    s.pc.toNat + 2 ≤ 255 ∧ ∃ sp v, s.reg 7 = some sp ∧ sp.toNat ≠ 0 ∧ (s.setReg 7 (sp - 1)).reg a = some v ∧
      t = State.jumpTo { s.setReg 7 (sp - 1) with
        mem := s.mem.write (sp - 1).toNat (BitVec.ofNat 8 (s.pc.toNat + 2)) } v := by
  unfold callHandler
  by_cases hr : s.pc.toNat + 2 ≤ 255
  · rw [if_neg (by omega)]
    simp only [bind_ok_iff, readReg_ok_iff, decSP_ok_iff, writeMem_ok_iff, pure, Except.pure,
      Except.ok.injEq, Int.toNat_natCast, hr, true_and]
    have hb : BitVec.ofInt 8 ((s.pc.toNat : Int) + 2) = BitVec.ofNat 8 (s.pc.toNat + 2) :=
      BitVec.ofInt_natCast 8 (s.pc.toNat + 2)
    constructor
    · rintro ⟨_, ⟨sp, hsp, h0, rfl⟩, _, ⟨_, rfl⟩, v, hv, rfl⟩
      exact ⟨sp, v, hsp, h0, hv, by simp [hb]⟩
    · rintro ⟨sp, v, hsp, h0, hv, rfl⟩
      exact ⟨_, ⟨sp, hsp, h0, rfl⟩, _, ⟨isAddress_iff.mp (isAddress_byte _), rfl⟩, v, hv, by simp [hb]⟩
  · rw [if_pos (by omega)]
    simp [hr]

theorem callHandler_error_iff : callHandler a s = .error c ↔
    (255 < s.pc.toNat + 2 ∧ c = .addressOutOfRange ((s.pc.toNat : Int) + 2)) ∨
    (s.pc.toNat + 2 ≤ 255 ∧ (decSP s = .error c ∨
      ∃ sp, s.reg 7 = some sp ∧ sp.toNat ≠ 0 ∧ readReg (s.setReg 7 (sp - 1)) a = .error c)) := by
  unfold callHandler
  by_cases hr : s.pc.toNat + 2 ≤ 255
  · rw [if_neg (by omega)]
    simp only [bind_error_iff, decSP_ok_iff, writeMem_error_iff, pure, Except.pure, reduceCtorEq, hr, true_and,
      and_false, exists_false, or_false, isAddress_iff.mp (isAddress_byte _), not_true, false_or, writeMem_ok_iff,
      show ¬ 255 < s.pc.toNat + 2 by omega, false_and]
    refine or_congr Iff.rfl ?_
    constructor
    · rintro ⟨_, ⟨sp, hsp, h0, rfl⟩, _, rfl, h⟩; exact ⟨sp, hsp, h0, h⟩
    · rintro ⟨sp, hsp, h0, h⟩; exact ⟨_, ⟨sp, hsp, h0, rfl⟩, _, rfl, h⟩
  · rw [if_pos (by omega)]
    simp [hr, eq_comm]
    omega

/-- RET completes when the cell at SP holds a value and SP can move up (rule R90). -/
theorem retHandler_ok_iff : retHandler s = .ok t ↔
    ∃ sp v, s.reg 7 = some sp ∧ s.mem.read sp.toNat = some v ∧ sp.toNat ≠ 255 ∧
      t = (s.setReg 7 (sp + 1)).jumpTo v := by
  simp only [retHandler, bind_ok_iff, readTop_ok_iff, incSP_ok_iff, pure, Except.pure, Except.ok.injEq]
  constructor
  · rintro ⟨v, ⟨sp, hsp, hv⟩, _, ⟨sp', hsp', h, rfl⟩, rfl⟩
    obtain rfl : sp = sp' := Option.some.inj (hsp ▸ hsp')
    exact ⟨sp, v, hsp, hv, h, rfl⟩
  · rintro ⟨sp, v, hsp, hv, h, rfl⟩
    exact ⟨v, ⟨sp, hsp, hv⟩, _, ⟨sp, hsp, h, rfl⟩, rfl⟩

theorem retHandler_error_iff : retHandler s = .error c ↔
    readTop s = .error c ∨ ∃ v, readTop s = .ok v ∧ incSP s = .error c := by
  simp [retHandler, bind_error_iff, pure, Except.pure]

theorem jumpHandler_ok_iff : jumpHandler a s = .ok t ↔ ∃ v, s.reg a = some v ∧ t = s.jumpTo v := by
  simp only [jumpHandler, bind_ok_iff, readReg_ok_iff, pure, Except.pure, Except.ok.injEq]
  exact exists_congr fun v => and_congr_right fun _ => eq_comm

theorem jumpHandler_error_iff : jumpHandler a s = .error c ↔ readReg s a = .error c := by
  simp [jumpHandler, bind_error_iff, pure, Except.pure]

/-- A conditional jump: taken when E is `want`, and then as JMP; else `pc + 2` (rules R94, R95). -/
theorem branchHandler_ok_iff {want : Bool} : branchHandler want a s = .ok t ↔
    (s.flags.E = some want ∧ ∃ v, s.reg a = some v ∧ t = s.jumpTo v) ∨
    (s.flags.E = some (!want) ∧ t = s.advance 2) := by
  simp only [branchHandler, bind_ok_iff, readFlag_ok_iff, Flags.get]
  rcases hE : s.flags.E with _ | e
  · simp
  · cases e <;> cases want <;> simp [jumpHandler_ok_iff, @eq_comm _ (s.advance 2)]

theorem branchHandler_error_iff {want : Bool} : branchHandler want a s = .error c ↔
    (s.flags.E = none ∧ c = .undefinedValue (.flag .E)) ∨ (s.flags.E = some want ∧ readReg s a = .error c) := by
  simp only [branchHandler, bind_error_iff, readFlag_ok_iff, readFlag_error_iff, Flags.get]
  rcases hE : s.flags.E with _ | e
  · simp
  · cases e <;> cases want <;> simp [jumpHandler_error_iff]

end

end Sys2Proof.Machine
end

