-- ==== Sys2Proof/Laws/Exec.lean ====
section
/-! SUPPORT. Fetch, dispatch and step: what a step can do, said once. -/

namespace Sys2Proof.Machine

/-- The handler of an instruction, before the commit. -/
def handler : Instr → State → Except FaultCause State
  | .halt, s => haltHandler s
  | .ret, s => retHandler s
  | .push a, s => pushHandler a s
  | .pop a, s => popHandler a s
  | .prn a, s => prnHandler a s
  | .call a, s => callHandler a s
  | .jmp a, s => jumpHandler a s
  | .jeq a, s => branchHandler true a s
  | .jne a, s => branchHandler false a s
  | .ldi a imm, s => ldiHandler a imm s
  | .add a b, s => aluHandler Config.flagsClearOnCmp .add a b s
  | .mul a b, s => aluHandler Config.flagsClearOnCmp .mul a b s
  | .cmp a b, s => aluHandler Config.flagsClearOnCmp .cmp a b s

/-- Every instruction's meaning is the commit of its handler (rules R68, R70). -/
theorem exec_eq_commit (i : Instr) (s : State) : exec i s = commit s (handler i s) := by
  cases i <;> rfl

/-- An instruction's meaning answers its handler's state, or the fault its handler raised. -/
theorem exec_next_iff {i : Instr} {s t : State} : exec i s = .next t ↔
    handler i s = .ok t ∨ ∃ c, handler i s = .error c ∧ t = takeFault c s := by
  rw [exec_eq_commit, commit_next_iff]

theorem exec_of_ok {i : Instr} {s t : State} (h : handler i s = .ok t) : exec i s = .next t :=
  exec_next_iff.mpr (.inl h)

theorem raises_of_error {i : Instr} {s : State} {c : FaultCause} (h : handler i s = .error c) : Raises i s c :=
  exec_next_iff.mpr (.inr ⟨c, h, rfl⟩)

/-- Everything a step can do: in status `Running` only, it takes a fault of fetch or of a handler, or it completes the
fetched instruction. -/
theorem step_cases {s t : State} (h : step s = .next t) :
    s.status = .running ∧
    ((∃ c, t = takeFault c s ∧ (fetchInstr s = .error c ∨ ∃ i, fetchInstr s = .ok i ∧ handler i s = .error c)) ∨
     (∃ i, fetchInstr s = .ok i ∧ handler i s = .ok t)) := by
  unfold step at h
  split at h
  · cases h
  · cases h
  · next hr =>
    refine ⟨hr, ?_⟩
    split at h
    · next c hc =>
      simp only [Host.Outcome.next.injEq] at h
      exact .inl ⟨c, h.symm, .inl hc⟩
    · next i hi =>
      rcases exec_next_iff.mp h with hk | ⟨c, hc, ht⟩
      · exact .inr ⟨i, hi, hk⟩
      · exact .inl ⟨c, ht, .inr ⟨i, hi, hc⟩⟩

/-- A running step runs the fetched instruction. -/
theorem step_of_fetch {s : State} {i : Instr} (hr : s.status = .running) (h : fetchInstr s = .ok i) :
    step s = exec i s := by
  simp [step, hr, h]

/-- A running step takes the fault of its fetch. -/
theorem step_of_fetch_error {s : State} {c : FaultCause} (hr : s.status = .running) (h : fetchInstr s = .error c) :
    step s = .next (takeFault c s) := by
  simp [step, hr, h]

/-- A fetched instruction is well-formed and stands in memory at the PC, all its bytes within 0..255. -/
theorem fetchInstr_ok {s : State} {i : Instr} (h : fetchInstr s = .ok i) :
    i.wf = true ∧ s.pc.toNat + i.length ≤ 256 ∧
      ∀ n (hn : n < (encode i).length), s.mem.read (s.pc.toNat + n) = some (encode i)[n] := by
  obtain ⟨hw, hr⟩ := decodeFrom_ok_reads h
  have hr' := fun n hn => readMem_ok_iff.mp (hr n hn)
  have hlen := encode_length i
  have hpos : 1 ≤ i.length := Nat.le_add_right _ _
  refine ⟨hw, ?_, fun n hn => ?_⟩
  · have := (hr' (i.length - 1) (by omega)).1.2
    omega
  · have := (hr' n hn).2
    rwa [show ((s.pc.toNat : Int) + (n : Int)).toNat = s.pc.toNat + n by omega] at this

/-- An instruction whose encoding stands at the PC is fetched. -/
theorem fetchInstr_of_mem {s : State} {i : Instr} (hw : i.wf = true) (hl : s.pc.toNat + i.length ≤ 256)
    (h : ∀ n (hn : n < (encode i).length), s.mem.read (s.pc.toNat + n) = some (encode i)[n]) :
    fetchInstr s = .ok i := by
  unfold fetchInstr
  refine decodeFrom_of_reads hw ?_
  intro n hn
  rw [readMem_ok_iff]
  refine ⟨?_, ?_⟩
  · have := encode_length i
    omega
  · rw [show ((s.pc.toNat : Int) + (n : Int)).toNat = s.pc.toNat + n by omega]
    exact h n hn

/-- Fetch depends on the memory and the PC alone. -/
theorem fetchInstr_congr {s t : State} (hm : t.mem = s.mem) (hp : t.pc = s.pc) : fetchInstr t = fetchInstr s := by
  have h : (fun n : Nat => readMem t ((s.pc.toNat : Int) + n)) = fun n : Nat => readMem s ((s.pc.toNat : Int) + n) :=
    funext fun n => readMem_congr hm _
  rw [fetchInstr, fetchInstr, hp, h]

end Sys2Proof.Machine
end

