-- ==== Sys2Proof/Laws/PerInstr.lean ====
section
/-! SUPPORT. One lemma per instruction: its encoding has the length its opcode byte's `AA` field announces (rules R48,
R55), and its opcode byte is found in the table as its own operation (rule R50). -/

namespace Sys2Proof.Laws.EncodingShape

/-- The encoding is the opcode byte, which the table maps to the instruction's operation, and as many operand bytes as
bits 7:6 of that byte say. -/
def Statement (i : Instr) : Prop :=
  (encode i).head? = some i.op.opcode ∧ lookupOpcode i.op.opcode = some i.op ∧
    (encode i).length = 1 + (opcodeFields i.op.opcode).AA.toNat

/-- Bits 7:6 of a defined opcode are its operand count. -/
theorem aa_eq_operandCount (o : Op) : (opcodeFields o.opcode).AA.toNat = o.operandCount := by
  cases o <;> decide

/-- The length part, for any instruction. -/
theorem length_eq (i : Instr) : (encode i).length = 1 + (opcodeFields i.op.opcode).AA.toNat := by
  rw [encode_length, aa_eq_operandCount]; rfl

theorem halt : Statement .halt := ⟨rfl, rfl, length_eq _⟩
theorem ret : Statement .ret := ⟨rfl, rfl, length_eq _⟩
theorem push (a : Byte) : Statement (.push a) := ⟨rfl, rfl, length_eq _⟩
theorem pop (a : Byte) : Statement (.pop a) := ⟨rfl, rfl, length_eq _⟩
theorem prn (a : Byte) : Statement (.prn a) := ⟨rfl, rfl, length_eq _⟩
theorem call (a : Byte) : Statement (.call a) := ⟨rfl, rfl, length_eq _⟩
theorem jmp (a : Byte) : Statement (.jmp a) := ⟨rfl, rfl, length_eq _⟩
theorem jeq (a : Byte) : Statement (.jeq a) := ⟨rfl, rfl, length_eq _⟩
theorem jne (a : Byte) : Statement (.jne a) := ⟨rfl, rfl, length_eq _⟩
theorem ldi (a imm : Byte) : Statement (.ldi a imm) := ⟨rfl, rfl, length_eq _⟩
theorem add (a b : Byte) : Statement (.add a b) := ⟨rfl, rfl, length_eq _⟩
theorem mul (a b : Byte) : Statement (.mul a b) := ⟨rfl, rfl, length_eq _⟩
theorem cmp (a b : Byte) : Statement (.cmp a b) := ⟨rfl, rfl, length_eq _⟩

end Sys2Proof.Laws.EncodingShape
end

