-- ==== Sys2Proof/Tests/Slice0.lean ====
section
/-! SUPPORT. Tests with expected results from 95_test_vectors.md and the encoding tables, and a witness for every statement
that has hypotheses. -/

namespace Sys2Proof.Tests

open Sys2Proof Sys2Proof.Machine

/-- A running state: PC, R0..R3, SP, E and the cells that hold something. R4..R6, L and G hold `⊥`. -/
def st (pc : PcWord) (r0 r1 r2 r3 sp : Option Byte) (e : Option Bool) (mem : Memory) : State where
  regs := #v[r0, r1, r2, r3, none, none, none, sp]
  flags := { E := e, L := none, G := none }
  pc := pc
  status := .running
  mem := mem
  output := []

/-- The next state of an outcome. -/
def nextOf (o : Host.Outcome State Fault Refusal) : Option State :=
  match o with
  | .next t => some t
  | .fault _ => none
  | .refused _ => none

/-- The fault a step took, with the PC recorded. -/
def faultOf (s : State) : Option FaultRecord :=
  match step s with
  | .next t => match t.status with
    | .faulted r => some r
    | .running => none
    | .halted => none
  | .fault _ => none
  | .refused _ => none

/-! ### WellFormed: an ill-formed term for each check -/

theorem test_wf_add : (Instr.add 7 0).wf = true := by decide
theorem test_wf_ldi_any_immediate : (Instr.ldi 0 255).wf = true := by decide
theorem test_wf_refuses_push_8 : (Instr.push 8).wf = false := by decide
theorem test_wf_refuses_pop_255 : (Instr.pop 255).wf = false := by decide
theorem test_wf_refuses_prn_8 : (Instr.prn 8).wf = false := by decide
theorem test_wf_refuses_call_8 : (Instr.call 8).wf = false := by decide
theorem test_wf_refuses_jmp_8 : (Instr.jmp 8).wf = false := by decide
theorem test_wf_refuses_jeq_8 : (Instr.jeq 8).wf = false := by decide
theorem test_wf_refuses_jne_8 : (Instr.jne 8).wf = false := by decide
theorem test_wf_refuses_ldi_a_8 : (Instr.ldi 8 0).wf = false := by decide
theorem test_wf_refuses_add_a_8 : (Instr.add 8 0).wf = false := by decide
theorem test_wf_refuses_add_b_8 : (Instr.add 0 8).wf = false := by decide
theorem test_wf_refuses_mul_b_8 : (Instr.mul 0 8).wf = false := by decide
theorem test_wf_refuses_cmp_b_9 : (Instr.cmp 0 9).wf = false := by decide

/-! ### Decode: one word of every row of rule R54, and the rejections X1..X5, X11, X13 -/

theorem test_decode_halt : decode [0b00000001] = .ok .halt := by decide
theorem test_decode_ret : decode [0b00010001] = .ok .ret := by decide
theorem test_decode_push : decode [0b01000101, 0b00000010] = .ok (.push 2) := by decide
theorem test_decode_pop : decode [0b01000110, 0b00000001] = .ok (.pop 1) := by decide
theorem test_decode_prn : decode [0b01000111, 0b00000011] = .ok (.prn 3) := by decide
theorem test_decode_call : decode [0b01010000, 0b00000111] = .ok (.call 7) := by decide
theorem test_decode_jmp : decode [0b01010100, 0b00000100] = .ok (.jmp 4) := by decide
theorem test_decode_jeq : decode [0b01010101, 0b00000101] = .ok (.jeq 5) := by decide
theorem test_decode_jne : decode [0b01010110, 0b00000110] = .ok (.jne 6) := by decide
theorem test_decode_ldi : decode [0b10000010, 0b00000001, 0b10000001] = .ok (.ldi 1 0x81) := by decide
theorem test_decode_add : decode [0b10100000, 0b00000001, 0b00000010] = .ok (.add 1 2) := by decide
theorem test_decode_mul : decode [0b10100010, 0b00000010, 0b00000011] = .ok (.mul 2 3) := by decide
theorem test_decode_cmp : decode [0b10100111, 0b00000011, 0b00000100] = .ok (.cmp 3 4) := by decide
theorem test_decode_x1 : decode [0x00] = .error (.rejected (.unknownOpcode 0x00)) := by decide
theorem test_decode_x3 : decode [0xC0, 1, 1] = .error (.rejected (.unknownOpcode 0xC0)) := by decide
theorem test_decode_x4 : decode [0x02, 0, 0] = .error (.rejected (.unknownOpcode 0x02)) := by decide
theorem test_decode_x5 : decode [0x41, 0] = .error (.rejected (.unknownOpcode 0x41)) := by decide
theorem test_decode_x11 : decode [0xA0, 8, 9] = .error (.rejected (.registerIndexOutOfRange 8)) := by decide
theorem test_decode_x13 : decode [0x82, 0, 9] = .ok (.ldi 0 9) := by decide
theorem test_decode_truncated : decode [0x82, 0] = .error .truncated := by decide

set_option maxRecDepth 4000 in
/-- Rule R56: the illegal opcode values are "the other 243". -/
theorem test_illegal_opcodes_243 :
    ((List.range 256).filter (fun n => (lookupOpcode (BitVec.ofNat 8 n)).isNone)).length = 243 := by decide

/-- Table words are numbered with the first byte in bits 7:0 and later bytes above it. -/
theorem test_table_word : decodeTableWord 24 0x0201A0 = some (.add 1 2) := by decide
theorem test_table_word_short : decodeTableWord 8 0xFFFF47 = some (.prn 0) := by decide

/-! ### Steps: the spec's own vectors -/

/-- X6. -/
theorem test_fetch_past_the_top :
    faultOf (st 256 none none none none none none []) = some ⟨.addressOutOfRange 256, 256⟩ := by decide
/-- X7. -/
theorem test_operand_past_the_top :
    faultOf (st 254 none none none none none none [(254, 0x82), (255, 0x00)]) =
      some ⟨.addressOutOfRange 256, 254⟩ := by decide
/-- X10. -/
theorem test_fetch_undefined :
    faultOf (st 0x10 none none none none none none []) = some ⟨.undefinedValue (.memory 0x10), 0x10⟩ := by decide
/-- X12: the operand fetch comes before the register check. -/
theorem test_fault_priority :
    faultOf (st 254 none none none none none none [(254, 0x82), (255, 0x09)]) =
      some ⟨.addressOutOfRange 256, 254⟩ := by decide
/-- A2. -/
theorem test_add_wraps :
    (nextOf (step (st 0x10 (some 200) (some 100) none none none none [(0x10, 0xA0), (0x11, 0), (0x12, 1)]))).map
      (fun t => (t.reg 0, t.reg 1, t.pc)) = some (some 44, some 100, 0x13) := by decide
/-- A5. -/
theorem test_add_undefined :
    faultOf (st 0x10 (some 5) none none none none none [(0x10, 0xA0), (0x11, 0), (0x12, 1)]) =
      some ⟨.undefinedValue (.register 1), 0x10⟩ := by decide
/-- A9. -/
theorem test_mul_wraps :
    (nextOf (step (st 0x10 (some 255) (some 255) none none none none [(0x10, 0xA2), (0x11, 0), (0x12, 1)]))).map
      (fun t => (t.reg 0, t.pc)) = some (some 1, 0x13) := by decide
/-- A10. -/
theorem test_mul_squares :
    (nextOf (exec (.mul 0 0) (st 0x10 (some 12) none none none none none []))).map (fun t => t.reg 0) =
      some (some 144) := by decide
/-- A14. -/
theorem test_cmp_unsigned :
    (nextOf (step (st 0x10 (some 200) (some 5) none none none none [(0x10, 0xA7), (0x11, 0), (0x12, 1)]))).map
      (fun t => (t.flags, t.pc)) = some (⟨some false, some false, some true⟩, 0x13) := by decide
/-- A16 and A17: `FLAGS_CLEAR_ON_CMP = false` keeps the other flags, `⊥` included. -/
theorem test_cmp_sticky :
    compareFlags false ⟨some true, some false, some false⟩ 3 5 = ⟨some true, some true, some false⟩ ∧
    compareFlags false ⟨none, none, none⟩ 3 5 = ⟨none, some true, none⟩ := by decide
/-- S2. -/
theorem test_ldi_sp :
    (nextOf (exec (.ldi 7 0) (st 0 none none none none (some 0xF4) none []))).map (fun t => (t.reg 7, t.pc)) =
      some (some 0, 3) := by decide
/-- S5. -/
theorem test_prn :
    (nextOf (step (st 3 (some 8) none none none none none [(3, 0x47), (4, 0)]))).map (fun t => (t.output, t.pc)) =
      some ([8], 5) := by decide
/-- S8: PUSH R7 stores the decremented SP. -/
theorem test_push_sp :
    (nextOf (step (st 3 none none none none (some 0xF4) none [(3, 0x45), (4, 7)]))).map
      (fun t => (t.reg 7, t.mem.read 0xF3, t.pc)) = some (some 0xF3, some 0xF3, 5) := by decide
/-- S9. -/
theorem test_push_at_zero :
    faultOf (st 3 (some 1) none none none (some 0) none [(3, 0x45), (4, 0)]) = some ⟨.addressOutOfRange (-1), 3⟩ := by
  decide
/-- S11: the popped cell keeps its value. -/
theorem test_pop :
    (nextOf (step (st 8 none none none none (some 0xF3) none [(8, 0x46), (9, 1), (0xF3, 42)]))).map
      (fun t => (t.reg 1, t.reg 7, t.mem.read 0xF3, t.pc)) = some (some 42, some 0xF4, some 42, 10) := by decide
/-- S12: POP R7 increments the popped value. -/
theorem test_pop_sp :
    (nextOf (exec (.pop 7) (st 8 none none none none (some 0xF3) none [(0xF3, 0x10)]))).map (fun t => t.reg 7) =
      some (some 0x11) := by decide
/-- S16. -/
theorem test_call :
    (nextOf (step (st 6 none (some 11) none none (some 0xF4) none [(6, 0x50), (7, 1)]))).map
      (fun t => (t.reg 7, t.mem.read 0xF3, t.pc)) = some (some 0xF3, some 8, 11) := by decide
/-- S18: the return address is checked before SP. -/
theorem test_call_at_254 :
    faultOf (st 254 none (some 0x10) none none (some 0xF4) none [(254, 0x50), (255, 1)]) =
      some ⟨.addressOutOfRange 256, 254⟩ := by decide
/-- S21. -/
theorem test_ret :
    (nextOf (step (st 0x0E none none none none (some 0xF3) none [(0x0E, 0x11), (0xF3, 8)]))).map
      (fun t => (t.reg 7, t.pc)) = some (some 0xF4, 8) := by decide
/-- S22. -/
theorem test_ret_at_255 :
    faultOf (st 0x0E none none none none (some 0xFF) none [(0x0E, 0x11), (0xFF, 0x10)]) =
      some ⟨.addressOutOfRange 256, 0x0E⟩ := by decide
/-- S26. -/
theorem test_halt_at_255 :
    (nextOf (step (st 255 none none none none none none [(255, 0x01)]))).map (fun t => (t.status, t.pc)) =
      some (.halted, 256) := by decide
/-- J1. -/
theorem test_jmp :
    (nextOf (step (st 20 none none (some 0x20) none none none [(20, 0x54), (21, 2)]))).map (fun t => t.pc) =
      some 0x20 := by decide
/-- J6: the target is not read. -/
theorem test_jeq_not_taken :
    (nextOf (step (st 20 none none none none none (some false) [(20, 0x55), (21, 3)]))).map (fun t => t.pc) =
      some 22 := by decide
/-- J7. -/
theorem test_jeq_undefined_flag :
    faultOf (st 20 none none none (some 12) none none [(20, 0x55), (21, 3)]) = some ⟨.undefinedValue (.flag .E), 20⟩ := by
  decide
/-- J9. -/
theorem test_jne_taken :
    (nextOf (step (st 20 none none none (some 12) none (some false) [(20, 0x56), (21, 3)]))).map (fun t => t.pc) =
      some 12 := by decide
/-- J10. -/
theorem test_jne_not_taken :
    (nextOf (step (st 20 none none none (some 12) none (some true) [(20, 0x56), (21, 3)]))).map (fun t => t.pc) =
      some 22 := by decide
/-- Rule R89: `CALL R0` as the first instruction after reset, placed by `withFetchWord`. -/
theorem test_with_fetch_word :
    (nextOf (step (State.reset.withFetchWord 8 0x50))).map (fun t => (t.pc, t.reg 7, t.mem.read 0xF3)) =
      some (0, some 0xF3, some 2) := by decide

/-! ### Witnesses: concrete states and operands that meet the hypotheses of each statement, clause by clause -/

theorem witness_DecodeOfEncodeIsIdentity : (Instr.add 7 7).wf = true := by decide

theorem witness_DecodedBytesAreTheEncoding : decode [0x82, 7, 255, 1] = .ok (.ldi 7 255) := by decide

/-- A state whose bytes at the PC are `CALL R1` at the last place where CALL can stand. -/
def wCall : State := st 253 none (some 11) none none (some 1) none [(253, 0x50), (254, 1)]

theorem witness_StepRunsTheDecodedInstruction : wCall.status = .running ∧
    (∀ n (h : n < [(0x50 : Byte), 1].length), readMem wCall ((wCall.pc.toNat : Int) + n) = .ok [(0x50 : Byte), 1][n]) ∧
    decode [0x50, 1] = .ok (.call 1) := by
  refine ⟨rfl, fun n h => ?_, by decide⟩
  have h0 : readMem wCall ((wCall.pc.toNat : Int) + (0 : Nat)) = .ok 0x50 := by decide
  have h1 : readMem wCall ((wCall.pc.toNat : Int) + (1 : Nat)) = .ok 1 := by decide
  have h2 : n < 2 := h
  interval_cases n
  · exact h0
  · exact h1

theorem witness_OpcodeFetchFaults :
    256 ≤ (st 256 none none none none none none []).pc.toNat ∧
    (st 255 none none none none none none []).pc.toNat < 256 ∧
    (st 255 none none none none none none []).mem.read 255 = none := by decide

theorem witness_UndefinedOpcodeFaultsAtOnce :
    readMem (st 255 none none none none none none [(255, 0xFF)]) 255 = .ok 0xFF ∧
    (0xFF : Byte) ∉ ([0x01, 0x11, 0x45, 0x46, 0x47, 0x50, 0x54, 0x55, 0x56, 0x82, 0xA0, 0xA2, 0xA7] : List Byte) := by
  decide

theorem witness_OperandFetchReadsTheTableCount :
    readMem (st 255 none none none none none none [(255, 0x01)]) 255 = .ok Op.halt.opcode ∧
    readMem (st 255 none none none none none none [(255, 0x11)]) 255 = .ok Op.ret.opcode ∧
    (readMem (st 255 none none none none none none [(255, 0x47)]) 255 = .ok Op.prn.opcode ∧
      1 ≤ Op.prn.operandCount) ∧
    (readMem (st 254 none none none none none none [(254, 0x47)]) 254 = .ok Op.prn.opcode ∧
      (st 254 none none none none none none [(254, 0x47)]).mem.read 255 = none) ∧
    (readMem (st 254 none none none none none none [(254, 0x82), (255, 0)]) 254 = .ok Op.ldi.opcode ∧
      Op.ldi.operandCount = 2 ∧
      (st 254 none none none none none none [(254, 0x82), (255, 0)]).mem.read 255 = some 0) ∧
    (readMem (st 253 none none none none none none [(253, 0xA0), (254, 0)]) 253 = .ok Op.add.opcode ∧
      (st 253 none none none none none none [(253, 0xA0), (254, 0)]).mem.read 255 = none) ∧
    readMem (st 254 none none none none none none [(254, 0x47), (255, 7)]) 255 = .ok 7 ∧
    readMem (st 253 none none none none none none [(253, 0xA0), (254, 0), (255, 7)]) 255 = .ok 7 := by decide

theorem witness_RegisterIndicesAreCheckedAtDecode :
    (readMem (st 254 none none none none none none [(254, 0x45), (255, 8)]) 254 = .ok Op.push.opcode ∧
      readMem (st 254 none none none none none none [(254, 0x45), (255, 8)]) 255 = .ok 8 ∧ Op.push.format = .R) ∧
    (readMem (st 0 none none none none none none [(0, 0xA0), (1, 8), (2, 9)]) 1 = .ok 8 ∧ Op.add.format = .RR) ∧
    (readMem (st 0 none none none none none none [(0, 0xA7), (1, 7), (2, 8)]) 1 = .ok 7 ∧
      readMem (st 0 none none none none none none [(0, 0xA7), (1, 7), (2, 8)]) 2 = .ok 8 ∧ Op.cmp.format = .RR) ∧
    (readMem (st 0 none none none none none none [(0, 0x82), (1, 7), (2, 255)]) 2 = .ok 255 ∧ Op.ldi.format = .RI) := by
  decide

/-- The two terminal statuses. -/
theorem witness_StepExistsExactlyWhenRunning :
    { State.reset with status := .halted }.status = .halted ∧
    { State.reset with status := .faulted ⟨.unknownOpcode 0, 0⟩ }.status = .faulted ⟨.unknownOpcode 0, 0⟩ := by decide

/-- A step that completes, and a step that faults. -/
theorem witness_steps :
    (∃ t, step wCall = .next t ∧ t.status = .running) ∧
    (∃ t r, step State.reset = .next t ∧ t.status = .faulted r) := ⟨⟨_, rfl, rfl⟩, ⟨_, _, rfl, rfl⟩⟩

theorem witness_AddressFaultsOnlyInTheListedCases :
    StepRaises (st 258 none none none none none none []) (.addressOutOfRange 258) ∧
    StepRaises (st 255 none none none none none none [(255, 0x47)]) (.addressOutOfRange 256) ∧
    StepRaises (st 3 (some 1) none none none (some 0) none [(3, 0x45), (4, 0)]) (.addressOutOfRange (-1)) ∧
    StepRaises (st 3 none none none none (some 255) none [(3, 0x11), (255, 0)]) (.addressOutOfRange 256) ∧
    StepRaises (st 3 none none none none (some 9) none [(3, 0x46), (4, 7), (9, 255)]) (.addressOutOfRange 256) ∧
    StepRaises (st 254 none (some 1) none none (some 9) none [(254, 0x50), (255, 1)]) (.addressOutOfRange 256) :=
  ⟨rfl, rfl, rfl, rfl, rfl, rfl⟩

/-- ADD, MUL and CMP: both operands defined at 255, `a` undefined, `b` undefined. -/
theorem witness_alu :
    ((st 0 (some 255) (some 255) none none none none []).reg 0 = some 255 ∧
      (st 0 (some 255) (some 255) none none none none []).reg 1 = some 255) ∧
    (st 0 none none none none none none []).reg 0 = none ∧
    ((st 0 (some 0) none none none none none []).reg 0 = some 0 ∧
      (st 0 (some 0) none none none none none []).reg 1 = none) := by decide

theorem witness_CmpSetsExactlyOneFlag :
    ∃ t, exec (.cmp 0 1) (st 0 (some 5) (some 5) none none none none []) = .next t ∧ t.status = .running :=
  ⟨_, rfl, rfl⟩

/-- LDI and PRN on R7 and on a register that holds `⊥`. -/
theorem witness_registers : (7 : Byte).toNat < 8 ∧ (st 0 none none none none (some 255) none []).reg 7 = some 255 ∧
    (st 0 none none none none none none []).reg 0 = none := by decide

/-- PUSH: SP at 1 with a plain register and with R7, SP at 0, an undefined register, an undefined SP. -/
theorem witness_PushStoresBelowTheStackPointer :
    ((st 0 (some 9) none none none (some 1) none []).reg 7 = some 1 ∧
      (if (0 : Byte) = 7 then some ((1 : Byte) - 1) else (st 0 (some 9) none none none (some 1) none []).reg 0) = some 9) ∧
    (if (7 : Byte) = 7 then some ((1 : Byte) - 1) else none) = some 0 ∧
    (st 0 none none none none (some 0) none []).reg 7 = some 0 ∧
    (st 0 none none none none (some 1) none []).reg 0 = none ∧
    (st 0 none none none none none none []).reg 7 = none := by decide

/-- POP: SP at 254 and 255 with a plain register, R7 with 254 and 255 on top, an undefined cell, an undefined SP. -/
theorem witness_PopLoadsFromTheStackPointer :
    ((st 0 none none none none (some 254) none [(254, 9)]).reg 7 = some 254 ∧
      (st 0 none none none none (some 254) none [(254, 9)]).mem.read 254 = some 9) ∧
    ((st 0 none none none none (some 255) none [(255, 9)]).reg 7 = some 255 ∧
      (st 0 none none none none (some 255) none [(255, 9)]).mem.read 255 = some 9) ∧
    (st 0 none none none none (some 255) none [(255, 254)]).mem.read 255 = some 254 ∧
    (st 0 none none none none (some 255) none [(255, 255)]).mem.read 255 = some 255 ∧
    (st 0 none none none none (some 255) none []).mem.read 255 = none ∧
    (st 0 none none none none none none []).reg 7 = none := by decide

/-- CALL: at 253 with SP at 1, through a plain register and through R7; at 254; SP at 0; undefined register and SP. -/
theorem witness_CallPushesTheReturnAddress :
    (wCall.pc.toNat ≤ 253 ∧ wCall.reg 7 = some 1 ∧
      (if (1 : Byte) = 7 then some ((1 : Byte) - 1) else wCall.reg 1) = some 11) ∧
    (if (7 : Byte) = 7 then some ((1 : Byte) - 1) else none) = some 0 ∧
    254 ≤ (st 254 none none none none none none []).pc.toNat ∧
    (st 253 none none none none (some 0) none []).reg 7 = some 0 ∧
    (st 253 none none none none (some 1) none []).reg 1 = none ∧
    (st 253 none none none none none none []).reg 7 = none := by decide

/-- RET: SP at 254 and at 255 over a defined cell, an undefined cell, an undefined SP. -/
theorem witness_RetPopsThePc :
    ((st 0 none none none none (some 254) none [(254, 255)]).reg 7 = some 254 ∧
      (st 0 none none none none (some 254) none [(254, 255)]).mem.read 254 = some 255) ∧
    ((st 0 none none none none (some 255) none [(255, 0)]).reg 7 = some 255 ∧
      (st 0 none none none none (some 255) none [(255, 0)]).mem.read 255 = some 0) ∧
    (st 0 none none none none (some 0) none []).mem.read 0 = none ∧
    (st 0 none none none none none none []).reg 7 = none := by decide

theorem witness_HaltStopsTheRun : (st 255 none none none none none none []).pc.toNat ≤ 255 := by decide

/-- JMP, JEQ and JNE: each value of E, and a target that is defined at 255 or undefined. -/
theorem witness_jumps :
    ((st 0 none none none (some 255) none (some true) []).flags.E = some true ∧
      (st 0 none none none (some 255) none (some true) []).reg 3 = some 255) ∧
    ((st 0 none none none (some 255) none (some false) []).flags.E = some false ∧
      (st 0 none none none (some 255) none (some false) []).reg 3 = some 255) ∧
    (st 0 none none none none none none []).flags.E = none ∧
    ((st 0 none none none none none (some true) []).flags.E = some true ∧
      (st 0 none none none none none (some true) []).reg 3 = none) ∧
    ((st 0 none none none none none (some false) []).flags.E = some false ∧
      (st 0 none none none none none (some false) []).reg 3 = none) := by decide

/-- A completed step of a jump taken, of a jump not taken, of CALL, of RET, and of a fall-through to 258. -/
theorem witness_Completes :
    (∃ t, Completes (st 0 none none none (some 255) none (some true) [(0, 0x55), (1, 3)]) (.jeq 3) t) ∧
    (∃ t, Completes (st 254 none none none none none (some true) [(254, 0x56), (255, 3)]) (.jne 3) t) ∧
    (∃ t, Completes wCall (.call 1) t) ∧
    (∃ t, Completes (st 9 none none none none (some 254) none [(9, 0x11), (254, 0)]) .ret t) ∧
    (∃ t, Completes (st 253 none none none none none none [(253, 0x82), (254, 0), (255, 255)]) (.ldi 0 255) t) ∧
    (∃ t, Completes (st 9 none none none none (some 254) none [(9, 0x46), (10, 0), (254, 0)]) (.pop 0) t) :=
  ⟨⟨_, by decide, rfl, rfl⟩, ⟨_, by decide, rfl, rfl⟩, ⟨_, by decide, rfl, rfl⟩, ⟨_, by decide, rfl, rfl⟩, ⟨_, by decide, rfl, rfl⟩,
    ⟨_, by decide, rfl, rfl⟩⟩

/-- A step of an instruction other than CMP. -/
theorem witness_OnlyCmpWritesTheFlags :
    (∃ t, step wCall = .next t) ∧ ∀ a b, fetchInstr wCall ≠ .ok (.cmp a b) := by
  have hf : fetchInstr wCall = .ok (.call 1) := by decide
  refine ⟨⟨_, rfl⟩, fun a b h => ?_⟩
  rw [hf] at h
  cases h

/-- Two states that differ in L and G alone, the first of which takes a step. -/
theorem witness_LAndGAreReadByNoInstruction :
    wCall.forgetLG = State.forgetLG { wCall with flags := ⟨none, some true, some false⟩ } ∧
    ∃ t, step wCall = .next t := ⟨rfl, _, rfl⟩

/-- Addresses at both ends of the array, and just outside it. -/
theorem witness_addresses : (0 : Int) ≤ 0 ∧ (255 : Int) < 256 ∧ ((-1 : Int) < 0 ∨ (256 : Int) ≤ -1) ∧
    ((256 : Int) < 0 ∨ (256 : Int) ≤ 256) := by decide

/-- PUSH R0 at 0 with SP = 3 stores its byte at 2, where the next instruction stands. -/
def wSelf (v : Byte) : State := st 0 (some v) none none none (some 3) none [(0, 0x45), (1, 0)]

theorem witness_StoredByteIsFetchedNext :
    (∃ t, Completes (wSelf 0x01) (.push 0) t) ∧ (∃ t, Completes (wSelf 0xFF) (.push 0) t) ∧
    lookupOpcode 0xFF = none ∧ (wSelf 0xFF).reg 7 = some 3 ∧ (3 : Byte).toNat = (wSelf 0xFF).pc.toNat + 3 ∧
    (wSelf 0xFF).reg 0 = some 0xFF :=
  ⟨⟨_, by decide, rfl, rfl⟩, ⟨_, by decide, rfl, rfl⟩, by decide, by decide, by decide, by decide⟩

/-- PUSH R0 with SP = 255, and the state after it. -/
theorem witness_PushThenPopRestores :
    ∃ t, exec (.push 0) (st 0 (some 7) none none none (some 255) none []) = .next t ∧
      (st 0 (some 7) none none none (some 255) none []).reg 7 = some 255 ∧ (255 : Byte).toNat ≠ 0 ∧
      (st 0 (some 7) none none none (some 255) none []).reg 0 = some 7 ∧
      t.reg 7 = t.reg 7 ∧ readMem t 254 = readMem t 254 := ⟨_, rfl, rfl, by decide, rfl, rfl, rfl⟩

/-- CALL R1 at 253 with SP = 1, and the state after it. -/
theorem witness_CallThenRetReturns :
    ∃ t, exec (.call 1) wCall = .next t ∧ wCall.reg 7 = some 1 ∧ wCall.status = .running ∧ t.status = .running :=
  ⟨_, rfl, rfl, rfl, rfl⟩

theorem witness_LdiThenPrnEmitsTheImmediate : (7 : Byte).toNat < 8 := by decide

set_option maxRecDepth 4000 in
/-- Images of 0, 1 and 256 bytes fit, one of 257 does not. -/
theorem witness_ResetAndLoadAsRule31 :
    ([] : List Byte).length ≤ 256 ∧ [(0x01 : Byte)].length ≤ 256 ∧ (List.replicate 256 (0 : Byte)).length ≤ 256 ∧
    256 < (List.replicate 257 (0 : Byte)).length := by decide

theorem witness_SpInitIsTheFirstStackPointer :
    (7 : Byte).toNat < 8 ∧ ∃ s, (State.resetUndefined 0).loadImage [0x45, 7] = some s := ⟨by decide, _, rfl⟩

theorem witness_HostReadsTheStateOnlyAfterTheRun :
    (State.readBack { State.reset with status := .halted }).isSome = true := by decide

theorem witness_InvariantAfterResetAndLoad :
    (∃ s, (State.resetUndefined 0xFF).loadImage [0x01] = some s) ∧
    (∃ s, (State.resetWith 0).loadImage [0x01] = some s) := ⟨⟨_, rfl⟩, ⟨_, rfl⟩⟩

/-- A state that meets the invariant and takes a step; so does the reset state, whose step faults. -/
theorem witness_EveryStepKeepsTheInvariant :
    wCall.Inv ∧ (∃ t, step wCall = .next t) ∧ State.reset.Inv ∧ ∃ t, step State.reset = .next t :=
  ⟨by decide, ⟨_, rfl⟩, by decide, ⟨_, rfl⟩⟩

end Sys2Proof.Tests
end

section
/-! Proofs of the statements about the block's scope (00_scope.md). -/

namespace Sys2Proof.Proofs.Scope

open Sys2Proof Sys2Proof.Machine

/-- Settles O39: the range check stands before any access to the array (rules R10, R38), so an address outside it meets
the `addressOutOfRange` clause of `readMem_error_iff` and of `writeMem_error_iff`. -/
theorem addressesOutsideMemoryFault : Obligations.AddressesOutsideMemoryFault := by
  intro s a v hout
  have hrange : ¬ (0 ≤ a ∧ a < 256) := by omega
  exact ⟨readMem_error_iff.mpr (.inl ⟨rfl, hrange⟩), writeMem_error_iff.mpr ⟨rfl, hrange⟩⟩

end Sys2Proof.Proofs.Scope
end

section
/-! Proofs of the statements about the state of the block (10_state.md). -/

namespace Sys2Proof.Proofs.StateRules

open Sys2Proof Sys2Proof.Machine

/-! ### What a completed instruction makes of the state -/

/-- `Effect s i t`: instruction `i`, run to its end on `s`, answers `t`. One constructor per way to complete, with what
has to hold for it; `effect_of_handler_ok` ties it to the model. -/
inductive Effect (s : State) : Instr → State → Prop
  | halt : Effect s .halt (State.advance { s with status := .halted } 1)
  | ret {sp v : Byte} (hsp : s.reg 7 = some sp) (hv : s.mem.read sp.toNat = some v) (htop : sp.toNat ≠ 255) :
      Effect s .ret ((s.setReg 7 (sp + 1)).jumpTo v)
  | push {a sp v : Byte} (hsp : s.reg 7 = some sp) (h0 : sp.toNat ≠ 0)
      (hv : (s.setReg 7 (sp - 1)).reg a = some v) :
      Effect s (.push a) (State.advance { s.setReg 7 (sp - 1) with mem := s.mem.write (sp - 1).toNat v } 2)
  | pop {a sp v sp' : Byte} (hsp : s.reg 7 = some sp) (hv : s.mem.read sp.toNat = some v) (ha : a.toNat < 8)
      (hsp' : (s.setReg a v).reg 7 = some sp') (htop : sp'.toNat ≠ 255) :
      Effect s (.pop a) (((s.setReg a v).setReg 7 (sp' + 1)).advance 2)
  | prn {a v : Byte} (hv : s.reg a = some v) : Effect s (.prn a) ((s.emit v).advance 2)
  | call {a sp v : Byte} (hpc : s.pc.toNat + 2 ≤ 255) (hsp : s.reg 7 = some sp) (h0 : sp.toNat ≠ 0)
      (hv : (s.setReg 7 (sp - 1)).reg a = some v) :
      Effect s (.call a) (State.jumpTo { s.setReg 7 (sp - 1) with
        mem := s.mem.write (sp - 1).toNat (BitVec.ofNat 8 (s.pc.toNat + 2)) } v)
  | jmp {a v : Byte} (hv : s.reg a = some v) : Effect s (.jmp a) (s.jumpTo v)
  | jeqTaken {a v : Byte} (hE : s.flags.E = some true) (hv : s.reg a = some v) : Effect s (.jeq a) (s.jumpTo v)
  | jeqFallsThrough {a : Byte} (hE : s.flags.E = some false) : Effect s (.jeq a) (s.advance 2)
  | jneTaken {a v : Byte} (hE : s.flags.E = some false) (hv : s.reg a = some v) : Effect s (.jne a) (s.jumpTo v)
  | jneFallsThrough {a : Byte} (hE : s.flags.E = some true) : Effect s (.jne a) (s.advance 2)
  | ldi {a imm : Byte} (ha : a.toNat < 8) : Effect s (.ldi a imm) ((s.setReg a imm).advance 3)
  | add {a b va vb : Byte} (ha : s.reg a = some va) (hb : s.reg b = some vb) :
      Effect s (.add a b) ((s.setReg a (aluAdd va vb)).advance 3)
  | mul {a b va vb : Byte} (ha : s.reg a = some va) (hb : s.reg b = some vb) :
      Effect s (.mul a b) ((s.setReg a (aluMul va vb)).advance 3)
  | cmp {a b va vb : Byte} (ha : s.reg a = some va) (hb : s.reg b = some vb) :
      Effect s (.cmp a b)
        (State.advance { s with flags := compareFlags Config.flagsClearOnCmp s.flags va vb } 3)

section
variable {s t : State} {i : Instr} {c : FaultCause}

/-- The effects are what the handlers answer when they complete. -/
theorem effect_of_handler_ok (h : handler i s = .ok t) : Effect s i t := by
  cases i with
  | halt => cases h; exact .halt
  | ret => obtain ⟨sp, v, hsp, hv, htop, rfl⟩ := retHandler_ok_iff.mp h; exact .ret hsp hv htop
  | push a => obtain ⟨sp, v, hsp, h0, hv, rfl⟩ := pushHandler_ok_iff.mp h; exact .push hsp h0 hv
  | pop a =>
    obtain ⟨sp, v, sp', hsp, hv, ha, hsp', htop, rfl⟩ := popHandler_ok_iff.mp h
    exact .pop hsp hv ha hsp' htop
  | prn a => obtain ⟨v, hv, rfl⟩ := prnHandler_ok_iff.mp h; exact .prn hv
  | call a => obtain ⟨hpc, sp, v, hsp, h0, hv, rfl⟩ := callHandler_ok_iff.mp h; exact .call hpc hsp h0 hv
  | jmp a => obtain ⟨v, hv, rfl⟩ := jumpHandler_ok_iff.mp h; exact .jmp hv
  | jeq a =>
    obtain ⟨hE, v, hv, rfl⟩ | ⟨hE, rfl⟩ := branchHandler_ok_iff.mp h
    · exact .jeqTaken hE hv
    · exact .jeqFallsThrough hE
  | jne a =>
    obtain ⟨hE, v, hv, rfl⟩ | ⟨hE, rfl⟩ := branchHandler_ok_iff.mp h
    · exact .jneTaken hE hv
    · exact .jneFallsThrough hE
  | ldi a imm => obtain ⟨ha, rfl⟩ := ldiHandler_ok_iff.mp h; exact .ldi ha
  | add a b => obtain ⟨va, vb, ha, hb, rfl⟩ := aluHandler_add_ok_iff.mp h; exact .add ha hb
  | mul a b => obtain ⟨va, vb, ha, hb, rfl⟩ := aluHandler_mul_ok_iff.mp h; exact .mul ha hb
  | cmp a b => obtain ⟨va, vb, ha, hb, rfl⟩ := aluHandler_cmp_ok_iff.mp h; exact .cmp ha hb

/-- The status after a completed instruction: HALT's is `Halted`, any other's is kept. -/
theorem Effect.status_eq (h : Effect s i t) : t.status = if i = .halt then .halted else s.status := by
  cases h <;> simp

/-- A completed instruction other than CMP keeps the flags (rule R21). -/
theorem Effect.flags_eq (h : Effect s i t) (hcmp : ∀ a b, i ≠ .cmp a b) : t.flags = s.flags := by
  cases h
  case cmp => exact absurd rfl (hcmp _ _)
  all_goals simp

/-- A completed instruction keeps the output, or is a PRN and appends its register's value (rule R29). -/
theorem Effect.output_eq (h : Effect s i t) :
    t.output = s.output ∨ ∃ a v, i = .prn a ∧ s.reg a = some v ∧ t.output = s.output ++ [v] := by
  cases h
  case prn a v hv => exact .inr ⟨a, v, rfl, hv, rfl⟩
  all_goals exact .inl (by simp)

/-- A completed instruction keeps the memory, or is a PUSH or a CALL and writes one cell just below SP (rule R34). -/
theorem Effect.mem_eq (h : Effect s i t) :
    t.mem = s.mem ∨ ∃ a sp v, (i = .push a ∨ i = .call a) ∧ s.reg 7 = some sp ∧ sp.toNat ≠ 0 ∧
      t.mem = s.mem.write (sp - 1).toNat v := by
  cases h
  case push a sp v hsp h0 _ => exact .inr ⟨a, sp, v, .inl rfl, hsp, h0, rfl⟩
  case call a sp v _ hsp h0 _ => exact .inr ⟨a, sp, _, .inr rfl, hsp, h0, rfl⟩
  all_goals exact .inl (by simp)

/-- A completed instruction advances the PC past itself, or sets it to a byte (rules R19, R96). -/
theorem Effect.pc_eq (h : Effect s i t) :
    t.pc = s.pc + BitVec.ofNat 9 i.length ∨ ∃ v : Byte, t.pc = v.setWidth 9 := by
  cases h
  case ret v _ _ _ | call v _ _ _ _ | jmp v _ | jeqTaken v _ _ | jneTaken v _ _ => exact .inr ⟨v, rfl⟩
  all_goals exact .inl (by simp [Instr.length, Instr.op, Op.operandCount, Op.format, Format.operandCount])

/-- A completed instruction keeps every register that the table of rule R14 does not give it. -/
theorem Effect.reg_eq (h : Effect s i t) {r : Byte} (hr : r ∉ writtenRegs i) : t.reg r = s.reg r := by
  cases h <;> simp only [writtenRegs, List.mem_cons, List.not_mem_nil, or_false, not_or] at hr
  case ret | push | call | ldi | add | mul => exact s.reg_setReg_other _ hr
  case pop a _ v _ _ _ _ _ _ => exact ((s.setReg a v).reg_setReg_other _ hr.2).trans (s.reg_setReg_other v hr.1)
  all_goals rfl

/-- A register write leaves every defined register defined (rule R28). -/
theorem isSome_reg_setReg {a v r : Byte} (h : (s.reg r).isSome) : ((s.setReg a v).reg r).isSome := by
  by_cases ha : a.toNat < 8
  · rw [State.reg_setReg s v ha]
    split
    · rfl
    · exact h
  · simpa [State.setReg, ha] using h

/-- A memory write leaves every defined cell defined (rule R28). -/
theorem isSome_read_write {m : Memory} {n a : Nat} {v : Byte} (h : (m.read a).isSome) :
    ((m.write n v).read a).isSome := by
  rw [Memory.read_write]
  split
  · rfl
  · exact h

/-- CMP defines every flag (rule R84). -/
theorem isSome_get_compareFlags (old : Flags) (va vb : Byte) (f : FlagName) :
    ((compareFlags Config.flagsClearOnCmp old va vb).get f).isSome := by
  cases f <;> rfl

theorem Effect.isSome_reg (h : Effect s i t) {r : Byte} (hr : (s.reg r).isSome) : (t.reg r).isSome := by
  cases h
  case ret | push | call | ldi | add | mul => exact isSome_reg_setReg hr
  case pop => exact isSome_reg_setReg (isSome_reg_setReg hr)
  all_goals exact hr

theorem Effect.isSome_flag (h : Effect s i t) {f : FlagName} (hf : (s.flags.get f).isSome) :
    (t.flags.get f).isSome := by
  cases h
  case cmp => exact isSome_get_compareFlags s.flags _ _ f
  all_goals simpa using hf

theorem Effect.isSome_read (h : Effect s i t) {a : Nat} (ha : (s.mem.read a).isSome) : (t.mem.read a).isSome := by
  obtain hm | ⟨_, _, _, _, _, _, hm⟩ := h.mem_eq <;> rw [hm]
  · exact ha
  · exact isSome_read_write ha

/-! ### What a step can do -/

/-- Everything a step can do: it takes a fault, or the fetched instruction has its effect. -/
theorem step_effect (h : step s = .next t) :
    (∃ c, t = takeFault c s ∧ (fetchInstr s = .error c ∨ ∃ i, fetchInstr s = .ok i ∧ handler i s = .error c)) ∨
    ∃ i, fetchInstr s = .ok i ∧ Effect s i t := by
  obtain ⟨_, hfault | ⟨i, hi, hk⟩⟩ := step_cases h
  · exact .inl hfault
  · exact .inr ⟨i, hi, effect_of_handler_ok hk⟩

/-- A step that completes its instruction has that instruction's effect. -/
theorem effect_of_completes (h : Completes s i t) : Effect s i t := by
  obtain ⟨hi, hstep, hnf⟩ := h
  obtain ⟨c, rfl, _⟩ | ⟨j, hj, he⟩ := step_effect hstep
  · cases hnf
  · obtain rfl : i = j := Except.ok.inj (hi.symm.trans hj)
    exact he

/-- A step exists exactly in status `Running` (rule R62). -/
theorem step_next_iff_running : (∃ t, step s = .next t) ↔ s.status = .running := by
  refine ⟨fun ⟨_, h⟩ => (step_cases h).1, fun hr => ?_⟩
  cases hf : fetchInstr s with
  | error c => exact ⟨_, step_of_fetch_error hr hf⟩
  | ok i =>
    rw [step_of_fetch hr hf, exec_eq_commit]
    cases handler i s <;> exact ⟨_, rfl⟩

end

/-! ### L and G are read by nothing (rule R22)

Each operation commutes with forgetting L and G, in the monad of checked computations; CMP, which writes all three
flags, does once they are forgotten after it as well. -/

section
variable (s : State) (a v imm : Byte) (x : Int)

theorem readReg_forgetLG : readReg s.forgetLG a = readReg s a := rfl
theorem readMem_forgetLG : readMem s.forgetLG x = readMem s x := rfl
theorem readTop_forgetLG : readTop s.forgetLG = readTop s := rfl
theorem readFlag_E_forgetLG : readFlag s.forgetLG .E = readFlag s .E := rfl

theorem setReg_forgetLG : s.forgetLG.setReg a v = (s.setReg a v).forgetLG := by
  unfold State.setReg; split <;> rfl

theorem writeReg_forgetLG : writeReg s.forgetLG a v = State.forgetLG <$> writeReg s a v := by
  unfold writeReg
  split
  · rw [setReg_forgetLG]; rfl
  · rfl

theorem writeMem_forgetLG : writeMem s.forgetLG x v = State.forgetLG <$> writeMem s x v := by
  unfold writeMem; split <;> rfl

theorem incSP_forgetLG : incSP s.forgetLG = State.forgetLG <$> incSP s := by
  simp only [incSP, readReg_forgetLG, writeReg_forgetLG, map_bind]
  refine bind_congr fun sp => ?_
  split <;> rfl

theorem decSP_forgetLG : decSP s.forgetLG = (fun p => (p.1, p.2.forgetLG)) <$> decSP s := by
  simp only [decSP, readReg_forgetLG, writeReg_forgetLG, map_bind, bind_map_left]
  refine bind_congr fun sp => ?_
  split
  · rfl
  · simp

theorem pushHandler_forgetLG : pushHandler a s.forgetLG = State.forgetLG <$> pushHandler a s := by
  simp only [pushHandler, decSP_forgetLG, readReg_forgetLG, writeMem_forgetLG, map_bind, bind_map_left]
  rfl

theorem popHandler_forgetLG : popHandler a s.forgetLG = State.forgetLG <$> popHandler a s := by
  simp only [popHandler, readTop_forgetLG, writeReg_forgetLG, incSP_forgetLG, map_bind, bind_map_left]
  rfl

theorem callHandler_forgetLG : callHandler a s.forgetLG = State.forgetLG <$> callHandler a s := by
  by_cases hr : (s.pc.toNat : Int) + 2 > 255
  · simp only [callHandler, State.forgetLG_pc, hr, if_true]
    rfl
  · simp only [callHandler, State.forgetLG_pc, hr, if_false, decSP_forgetLG, writeMem_forgetLG, readReg_forgetLG,
      map_bind, bind_map_left]
    rfl

theorem retHandler_forgetLG : retHandler s.forgetLG = State.forgetLG <$> retHandler s := by
  simp only [retHandler, readTop_forgetLG, incSP_forgetLG, map_bind, bind_map_left]
  rfl

theorem prnHandler_forgetLG : prnHandler a s.forgetLG = State.forgetLG <$> prnHandler a s := by
  simp only [prnHandler, readReg_forgetLG, map_bind]
  rfl

theorem ldiHandler_forgetLG : ldiHandler a imm s.forgetLG = State.forgetLG <$> ldiHandler a imm s := by
  simp only [ldiHandler, writeReg_forgetLG, map_bind, bind_map_left]
  rfl

theorem jumpHandler_forgetLG : jumpHandler a s.forgetLG = State.forgetLG <$> jumpHandler a s := by
  simp only [jumpHandler, readReg_forgetLG, map_bind]
  rfl

theorem branchHandler_forgetLG (want : Bool) :
    branchHandler want a s.forgetLG = State.forgetLG <$> branchHandler want a s := by
  simp only [branchHandler, readFlag_E_forgetLG, jumpHandler_forgetLG, map_bind]
  refine bind_congr fun e => ?_
  split <;> rfl

theorem addHandler_forgetLG (clear : Bool) (b : Byte) :
    aluHandler clear .add a b s.forgetLG = State.forgetLG <$> aluHandler clear .add a b s := by
  simp only [aluHandler, aluApply, readReg_forgetLG, writeReg_forgetLG, map_bind, bind_map_left, bind_assoc]
  rfl

theorem mulHandler_forgetLG (clear : Bool) (b : Byte) :
    aluHandler clear .mul a b s.forgetLG = State.forgetLG <$> aluHandler clear .mul a b s := by
  simp only [aluHandler, aluApply, readReg_forgetLG, writeReg_forgetLG, map_bind, bind_map_left, bind_assoc]
  rfl

/-- CMP's E depends on the old E at most, and its L and G are forgotten. -/
theorem forgetLG_cmpHandler_forgetLG (clear : Bool) (b : Byte) :
    State.forgetLG <$> aluHandler clear .cmp a b s.forgetLG = State.forgetLG <$> aluHandler clear .cmp a b s := by
  simp only [aluHandler, aluApply, readReg_forgetLG, map_bind, bind_assoc]
  refine bind_congr fun va => bind_congr fun vb => ?_
  cases clear <;> rfl

/-- No handler reads L or G: with the two forgotten before it, it answers the same up to L and G. -/
theorem handler_forgetLG (i : Instr) :
    State.forgetLG <$> handler i s.forgetLG = State.forgetLG <$> handler i s := by
  have twice {r r' : Except FaultCause State} (h : r' = State.forgetLG <$> r) :
      State.forgetLG <$> r' = State.forgetLG <$> r := by
    subst h; cases r <;> rfl
  cases i with
  | halt => rfl
  | ret => exact twice (retHandler_forgetLG s)
  | push a => exact twice (pushHandler_forgetLG s a)
  | pop a => exact twice (popHandler_forgetLG s a)
  | prn a => exact twice (prnHandler_forgetLG s a)
  | call a => exact twice (callHandler_forgetLG s a)
  | jmp a => exact twice (jumpHandler_forgetLG s a)
  | jeq a => exact twice (branchHandler_forgetLG s a true)
  | jne a => exact twice (branchHandler_forgetLG s a false)
  | ldi a imm => exact twice (ldiHandler_forgetLG s a imm)
  | add a b => exact twice (addHandler_forgetLG s a _ b)
  | mul a b => exact twice (mulHandler_forgetLG s a _ b)
  | cmp a b => exact forgetLG_cmpHandler_forgetLG s a _ b

theorem map_ok_iff {ε α β : Type} {f : α → β} {x : Except ε α} {b : β} :
    f <$> x = .ok b ↔ ∃ a, x = .ok a ∧ f a = b := by
  cases x <;> simp [Functor.map, Except.map]

theorem map_error_iff {ε α β : Type} {f : α → β} {x : Except ε α} {e : ε} :
    f <$> x = .error e ↔ x = .error e := by
  cases x <;> simp [Functor.map, Except.map]

/-- Two states alike but for L and G: a handler raises the same fault on both, or answers states alike but for L
and G. -/
theorem handler_alike {s s' : State} (hs : s.forgetLG = s'.forgetLG) (i : Instr) :
    State.forgetLG <$> handler i s' = State.forgetLG <$> handler i s := by
  rw [← handler_forgetLG s, hs, handler_forgetLG]

end

/-- Settles O36. Status, memory and PC agree, so both states run and fetch the same instruction; its handlers agree by
`handler_alike`, and so do the states in which a fault is taken. -/
theorem lAndGAreReadByNoInstruction : Obligations.LAndGAreReadByNoInstruction := by
  intro s s' t hs hstep
  obtain ⟨hr, h⟩ := step_cases hstep
  have hr' : s'.status = .running := (congrArg State.status hs).symm.trans hr
  have hfetch : fetchInstr s' = fetchInstr s :=
    fetchInstr_congr (congrArg State.mem hs).symm (congrArg State.pc hs).symm
  have hfault (c : FaultCause) : (takeFault c s).forgetLG = (takeFault c s').forgetLG :=
    congrArg (takeFault c) hs
  obtain ⟨c, rfl, hc | ⟨i, hi, hc⟩⟩ | ⟨i, hi, hk⟩ := h
  · exact ⟨_, step_of_fetch_error hr' (hfetch.trans hc), hfault c⟩
  · have hc' : handler i s' = .error c := by
      rw [← map_error_iff, handler_alike hs, hc]; rfl
    exact ⟨_, (step_of_fetch hr' (hfetch.trans hi)).trans (raises_of_error hc'), hfault c⟩
  · obtain ⟨t', hk', ht⟩ : ∃ t', handler i s' = .ok t' ∧ t'.forgetLG = t.forgetLG := by
      rw [← map_ok_iff, handler_alike hs, hk]; rfl
    exact ⟨t', (step_of_fetch hr' (hfetch.trans hi)).trans (exec_of_ok hk'), ht.symm⟩

/-! ### The invariant -/

section
variable {s t : State} {a v : Byte} {i : Instr} {c : FaultCause}

theorem readReg_error_legal (h : readReg s a = .error c) : c.legal = true := by
  obtain ⟨rfl, ha⟩ | ⟨rfl, ha, _⟩ := readReg_error_iff.mp h <;> simpa [FaultCause.legal] using ha

theorem decSP_error_legal (h : decSP s = .error c) : c.legal = true := by
  obtain ⟨rfl, _⟩ | ⟨rfl, _⟩ := decSP_error_iff.mp h <;> rfl

theorem incSP_error_legal (h : incSP s = .error c) : c.legal = true := by
  obtain ⟨rfl, _⟩ | ⟨rfl, _⟩ := incSP_error_iff.mp h <;> rfl

theorem readTop_error_legal (h : readTop s = .error c) : c.legal = true := by
  obtain ⟨rfl, _⟩ | ⟨sp, _, _, rfl⟩ := readTop_error_iff.mp h
  · rfl
  · simpa [FaultCause.legal] using sp.isLt

theorem writeReg_error_legal (h : writeReg s a v = .error c) : c.legal = true := by
  obtain ⟨rfl, ha⟩ := writeReg_error_iff.mp h
  simpa [FaultCause.legal] using ha

/-- A read at 0 or above and at most 258 raises a legal fault (rule R102). -/
theorem readMem_error_legal {x : Int} (h0 : 0 ≤ x) (hx : x ≤ 258) (h : readMem s x = .error c) : c.legal = true := by
  obtain ⟨rfl, hr⟩ | ⟨rfl, hr, _⟩ := readMem_error_iff.mp h <;> simp only [FaultCause.legal, decide_eq_true_eq] <;>
    omega

theorem aluHandler_error_legal {clear : Bool} {op : AluOp} {b : Byte} (hop : op = .add ∨ op = .mul ∨ op = .cmp)
    (h : aluHandler clear op a b s = .error c) : c.legal = true := by
  obtain h | ⟨_, _, h⟩ := (aluHandler_error_iff hop).mp h <;> exact readReg_error_legal h

theorem branchHandler_error_legal {want : Bool} (h : branchHandler want a s = .error c) : c.legal = true := by
  obtain ⟨_, rfl⟩ | ⟨_, h⟩ := branchHandler_error_iff.mp h
  · rfl
  · exact readReg_error_legal h

/-- A handler that runs where its instruction was fetched raises a legal fault (rule R99). -/
theorem handler_error_legal (hpc : s.pc.toNat + i.length ≤ 256) (h : handler i s = .error c) : c.legal = true := by
  cases i with
  | halt => cases h
  | ret =>
    obtain h | ⟨_, _, h⟩ := retHandler_error_iff.mp h
    · exact readTop_error_legal h
    · exact incSP_error_legal h
  | push a =>
    obtain h | ⟨_, _, _, h⟩ := pushHandler_error_iff.mp h
    · exact decSP_error_legal h
    · exact readReg_error_legal h
  | pop a =>
    obtain h | ⟨_, _, h | ⟨_, h⟩⟩ := popHandler_error_iff.mp h
    · exact readTop_error_legal h
    · exact writeReg_error_legal h
    · exact incSP_error_legal h
  | prn a => exact readReg_error_legal (prnHandler_error_iff.mp h)
  | call a =>
    obtain ⟨hr, rfl⟩ | ⟨_, h | ⟨_, _, _, h⟩⟩ := callHandler_error_iff.mp h
    · have : s.pc.toNat + 2 ≤ 256 := hpc
      simp only [FaultCause.legal, decide_eq_true_eq]
      omega
    · exact decSP_error_legal h
    · exact readReg_error_legal h
  | jmp a => exact readReg_error_legal (jumpHandler_error_iff.mp h)
  | jeq a | jne a => exact branchHandler_error_legal h
  | ldi a imm =>
    obtain ⟨rfl, ha⟩ := ldiHandler_error_iff.mp h
    simpa [FaultCause.legal] using ha
  | add a b => exact aluHandler_error_legal (.inl rfl) h
  | mul a b => exact aluHandler_error_legal (.inr (.inl rfl)) h
  | cmp a b => exact aluHandler_error_legal (.inr (.inr rfl)) h

/-- Decoding one operation fails on the read of an operand byte, or on a register operand of 8 or more (rules R65,
R66). -/
theorem decodeOp_error {ε : Type} {read : Nat → Except ε Byte} {reject : Reject → ε} {o : Op} {e : ε}
    (h : decodeOp read reject o = .error e) :
    (∃ n ≤ 2, read n = .error e) ∨ ∃ r, isRegIndex r = false ∧ e = reject (.registerIndexOutOfRange r) := by
  cases o
  case halt | ret => cases h
  case push | pop | prn | call | jmp | jeq | jne =>
    obtain h | ⟨r, _, hr⟩ := decodeR_error_iff.mp h
    · exact .inl ⟨1, by decide, h⟩
    · exact .inr ⟨r, hr⟩
  case ldi =>
    obtain h | ⟨r, _, h | ⟨_, _, hr⟩⟩ := decodeRI_error_iff.mp h
    · exact .inl ⟨1, by decide, h⟩
    · exact .inl ⟨2, by decide, h⟩
    · exact .inr ⟨r, hr⟩
  case add | mul | cmp =>
    obtain h | ⟨r, _, h | ⟨r', _, hr | ⟨_, hr⟩⟩⟩ := decodeRR_error_iff.mp h
    · exact .inl ⟨1, by decide, h⟩
    · exact .inl ⟨2, by decide, h⟩
    · exact .inr ⟨r, hr⟩
    · exact .inr ⟨r', hr⟩

/-- Fetch and decode raise a legal fault at every PC of 0..258; past the opcode byte the PC is at most 255. -/
theorem fetchInstr_error_legal (hpc : s.pc.toNat ≤ 258) (h : fetchInstr s = .error c) : c.legal = true := by
  obtain h | ⟨b, _, hb, rfl⟩ | ⟨o, h0, h⟩ := decodeFrom_error_iff.mp h
  · exact readMem_error_legal (by omega) (by omega) h
  · simp [rejectFault, FaultCause.legal, hb]
  · obtain ⟨⟨_, hlow⟩, _⟩ := readMem_ok_iff.mp h0
    obtain ⟨n, hn, h⟩ | ⟨r, hr, rfl⟩ := decodeOp_error h
    · exact readMem_error_legal (by omega) (by omega) h
    · have : ¬ r.toNat < 8 := fun hlt => by simp [isRegIndex_iff.mpr hlt] at hr
      simp only [rejectFault, FaultCause.legal, decide_eq_true_eq]
      omega

/-- Taking a legal fault keeps the invariant. -/
theorem takeFault_inv (hs : s.Inv) (hc : c.legal = true) : (takeFault c s).Inv := by
  obtain ⟨hmem, hpc, _⟩ := hs
  exact ⟨hmem, hpc, by simp [Status.legalAt, hc]⟩

/-- A PC from which a whole instruction was fetched advances without wrapping (rule R20). -/
theorem pc_add_length_toNat (hpc : s.pc.toNat + i.length ≤ 256) :
    (s.pc + BitVec.ofNat 9 i.length).toNat = s.pc.toNat + i.length := by
  rw [BitVec.toNat_add, BitVec.toNat_ofNat]
  omega

/-- A byte target is the PC it names (rule R96). -/
theorem target_toNat (v : Byte) : (v.setWidth 9).toNat = v.toNat := by
  have := v.isLt
  rw [BitVec.toNat_setWidth]
  omega

theorem Effect.mem_wf (h : Effect s i t) (hs : s.mem.wf) : t.mem.wf := by
  obtain hm | ⟨_, sp, _, _, _, _, hm⟩ := h.mem_eq <;> rw [hm]
  · exact hs
  · exact Memory.write_wf hs (sp - 1).isLt

/-- After a completed instruction the PC is at most one past the last address. -/
theorem Effect.pc_le (h : Effect s i t) (hpc : s.pc.toNat + i.length ≤ 256) : t.pc.toNat ≤ 256 := by
  obtain hp | ⟨v, hp⟩ := h.pc_eq <;> rw [hp]
  · rwa [pc_add_length_toNat hpc]
  · rw [target_toNat]; have := v.isLt; omega

/-- A completed instruction leaves the block running, or is a HALT and leaves the PC one past its address. -/
theorem Effect.status_legal (h : Effect s i t) (hr : s.status = .running) (hpc : s.pc.toNat + i.length ≤ 256) :
    t.status.legalAt t.pc = true := by
  rw [h.status_eq]
  split
  · next hi =>
    subst hi
    cases h
    have h1 : (s.pc + BitVec.ofNat 9 1).toNat = s.pc.toNat + 1 := pc_add_length_toNat hpc
    have hp : s.pc.toNat + 1 ≤ 256 := hpc
    simp only [Status.legalAt, State.advance_pc, h1, decide_eq_true_eq]
    omega
  · rw [hr]; rfl

end

/-- Settles O50. A fault changes the status alone and is legal, as fetch runs at a PC of at most 258 and a handler where
its instruction was fetched whole; a completed instruction writes at most one cell of the array and leaves the PC at 256
or below. -/
theorem everyStepKeepsTheInvariant : Obligations.EveryStepKeepsTheInvariant := by
  intro s t hs hstep
  have ⟨hmem, hpc, _⟩ := hs
  obtain ⟨hr, h⟩ := step_cases hstep
  obtain ⟨c, rfl, hc | ⟨i, hi, hc⟩⟩ | ⟨i, hi, hk⟩ := h
  · exact takeFault_inv hs (fetchInstr_error_legal hpc hc)
  · obtain ⟨_, hlen, _⟩ := fetchInstr_ok hi
    exact takeFault_inv hs (handler_error_legal hlen hc)
  · obtain ⟨_, hlen, _⟩ := fetchInstr_ok hi
    have he := effect_of_handler_ok hk
    exact ⟨he.mem_wf hmem, (he.pc_le hlen).trans (by decide), he.status_legal hr hlen⟩

/-! ### Rules over all instructions -/

/-- Settles O11. A fault's status is neither `Running` nor `Halted`, and HALT raises none; a completed instruction halts
exactly when it is HALT (`Effect.status_eq`). -/
theorem onlyHaltHalts : Obligations.OnlyHaltHalts := by
  intro s t hstep
  have hr : s.status = .running := step_next_iff_running.mp ⟨t, hstep⟩
  obtain ⟨c, rfl, hf⟩ | ⟨i, hi, he⟩ := step_effect hstep
  · have hne : fetchInstr s ≠ .ok .halt := by
      intro hh
      obtain hc | ⟨i, hi, hc⟩ := hf
      · cases hh.symm.trans hc
      · cases Except.ok.inj (hh.symm.trans hi)
        cases hc
    exact ⟨by simp [hne], .inr (.inr ⟨c, rfl⟩)⟩
  · rw [he.status_eq, hi, hr]
    by_cases hh : i = .halt <;> simp [hh]

/-- Settles O31: the PC of each effect, with the whole instruction below address 256, so that no sum wraps. -/
theorem nextPcOfEveryInstruction : Obligations.NextPcOfEveryInstruction := by
  intro s t i hc
  have ⟨hi, _, _⟩ := hc
  obtain ⟨_, hlen, _⟩ := fetchInstr_ok hi
  have hadv := pc_add_length_toNat hlen
  cases effect_of_completes hc with
  | @ret sp v hsp hv _ => exact ⟨sp, v, hsp, hv, target_toNat v⟩
  | @call a sp v _ _ _ hv => exact ⟨v, hv, fun ha => (s.reg_setReg_other _ ha).symm.trans hv, target_toNat v⟩
  | @jmp a v hv => exact ⟨v, hv, target_toNat v⟩
  | @jeqTaken a v hE hv | @jneTaken a v hE hv => exact .inl ⟨hE, v, hv, target_toNat v⟩
  | jeqFallsThrough hE | jneFallsThrough hE => exact .inr ⟨hE, hadv⟩
  | halt | prn | cmp => exact hadv
  | push | pop | ldi | add | mul =>
    simp only [State.advance_pc, State.setReg_pc]
    exact hadv

/-- Settles O32: a fault keeps the flags, and so does every effect but CMP's. -/
theorem onlyCmpWritesTheFlags : Obligations.OnlyCmpWritesTheFlags := by
  intro s t hstep hcmp
  obtain ⟨c, rfl, _⟩ | ⟨i, hi, he⟩ := step_effect hstep
  · rfl
  · exact he.flags_eq fun a b hab => hcmp a b (hab ▸ hi)

/-- Settles O33: a fault emits nothing, and of the effects only PRN's does. -/
theorem onlyPrnExtendsTheOutput : Obligations.OnlyPrnExtendsTheOutput := by
  intro s t hstep
  obtain ⟨c, rfl, _⟩ | ⟨i, hi, he⟩ := step_effect hstep
  · exact .inl rfl
  · obtain ho | ⟨a, v, rfl, hv, ho⟩ := he.output_eq
    · exact .inl ho
    · exact .inr ⟨a, v, hi, hv, ho⟩

/-- Settles O35: `Effect.reg_eq` over the registers. -/
theorem registersWrittenAsTheTableSays : Obligations.RegistersWrittenAsTheTableSays :=
  fun _ _ _ hc _ hr => (effect_of_completes hc).reg_eq hr

/-- Settles O37: a fault keeps all values, and every write of a completed instruction stores a defined value. -/
theorem definedValuesStayDefined : Obligations.DefinedValuesStayDefined := by
  intro s t hstep
  obtain ⟨c, rfl, _⟩ | ⟨i, _, he⟩ := step_effect hstep
  · exact ⟨fun _ => id, fun _ => id, fun _ => id⟩
  · exact ⟨fun _ => he.isSome_reg, fun _ => he.isSome_flag, fun _ => he.isSome_read⟩

/-! ### Host interface, reset and load -/

/-- Settles O45: the host reads in every status but `Running`, the one status with a step. -/
theorem hostReadsTheStateOnlyAfterTheRun : Obligations.HostReadsTheStateOnlyAfterTheRun := by
  intro s
  rw [step_next_iff_running]
  unfold State.readBack
  split
  · next hr => exact ⟨by simp [hr], fun u hu => by cases hu⟩
  · next hr => exact ⟨by simp [hr], fun u hu => (Option.some.inj hu).symm⟩

/-- The host load: an image of at most 256 bytes is placed from address 0 (rule R118). -/
theorem loadImage_some_iff {s t : State} {image : List Byte} : s.loadImage image = some t ↔
    image.length ≤ 256 ∧ t = { s with mem := s.mem.writeAll 0 image } := by
  unfold State.loadImage
  split
  · next hl => simp [show image.length ≤ 256 from hl, eq_comm]
  · next hl => simp [show ¬ image.length ≤ 256 from hl]

/-- At reset SP holds `SP_INIT` and every other register `⊥` (rule R31). -/
theorem resetUndefined_reg (sp r : Byte) : (State.resetUndefined sp).reg r = if r = 7 then some sp else none := by
  by_cases hr : r.toNat < 8
  · obtain ⟨⟨n, hn⟩⟩ := r
    have hn8 : n < 8 := hr
    interval_cases n <;> rfl
  · rw [State.reg, dif_neg hr, if_neg (by rintro rfl; exact hr (by decide))]

/-- The memory after reset and load: the image from address 0, and `⊥` past its end (rule R118). -/
theorem read_writeAll_nil {image : List Byte} (hl : image.length ≤ 256) (n : Nat) :
    (Memory.writeAll [] 0 image).read n = image[n]? := by
  rw [Memory.read_writeAll]
  split
  · exact (List.getElem?_eq_getElem _).symm
  · next h => exact (List.getElem?_eq_none (by omega)).symm

/-- Settles O46: the fields of `resetUndefined`, and the load's memory as `read_writeAll_nil` reads it. -/
theorem resetAndLoadAsRule31 : Obligations.ResetAndLoadAsRule31 := by
  intro sp image
  refine ⟨fun hl => ?_, fun hl => ⟨_, loadImage_some_iff.mpr ⟨hl, rfl⟩, rfl, rfl, ?_, fun r hr => ?_, rfl, rfl,
    fun n hn => ?_, fun n hn => ?_, ?_⟩⟩
  · refine Option.eq_none_iff_forall_ne_some.mpr fun t ht => ?_
    obtain ⟨hfits, _⟩ := loadImage_some_iff.mp ht
    omega
  · exact (resetUndefined_reg sp 7).trans (if_pos rfl)
  · exact (resetUndefined_reg sp r).trans (if_neg hr)
  · exact (read_writeAll_nil hl n).trans (List.getElem?_eq_getElem hn)
  · exact (read_writeAll_nil hl n).trans (List.getElem?_eq_none hn)
  · rintro rfl
    have h0 : (0 : Int) < 256 := by decide
    refine step_of_fetch_error rfl (decodeFrom_error_iff.mpr (.inl ?_))
    exact readMem_error_iff.mpr (.inr ⟨rfl, ⟨le_rfl, h0⟩, rfl⟩)

/-- After reset and load the block fetches the instruction that stands first in the image. -/
theorem fetchInstr_of_loadImage {s t : State} {i : Instr} {rest : List Byte} (hw : i.wf = true) (hpc : s.pc = 0)
    (hmem : s.mem = []) (h : s.loadImage (encode i ++ rest) = some t) : fetchInstr t = .ok i := by
  obtain ⟨hl, rfl⟩ := loadImage_some_iff.mp h
  have hpc0 : s.pc.toNat = 0 := congrArg BitVec.toNat hpc
  have hlen := encode_length i
  have happ := List.length_append (as := encode i) (bs := rest)
  refine fetchInstr_of_mem hw ?_ fun n hn => ?_ <;> simp only [hpc0, hmem, Nat.zero_add]
  · omega
  · rw [read_writeAll_nil hl, List.getElem?_append_left hn, List.getElem?_eq_getElem hn]

/-- Settles O47. The push that stands first is fetched at once and finds SP at 0. -/
theorem spInitIsTheFirstStackPointer : Obligations.SpInitIsTheFirstStackPointer := by
  have hreg (sp : Byte) : (State.resetUndefined sp).reg 7 = some sp := (resetUndefined_reg sp 7).trans (if_pos rfl)
  refine ⟨hreg, fun r rest s hr hload => ?_⟩
  have hfetch : fetchInstr s = .ok (.push r) :=
    fetchInstr_of_loadImage (by simp [Instr.wf, Instr.regOperands, isRegIndex_iff.mpr hr]) rfl rfl hload
  obtain ⟨_, rfl⟩ := loadImage_some_iff.mp hload
  have hdec := decSP_error_iff.mpr (.inr ⟨rfl, 0, hreg 0, rfl⟩)
  exact (step_of_fetch rfl hfetch).trans (raises_of_error (pushHandler_error_iff.mpr (.inl hdec)))

/-- A reset state after the load of an image meets the invariant. -/
theorem loadImage_inv {s t : State} {image : List Byte} (hmem : s.mem.wf) (hpc : s.pc = 0)
    (hr : s.status = .running) (h : s.loadImage image = some t) : t.Inv := by
  have hwf := State.loadImage_wf hmem h
  obtain ⟨_, rfl⟩ := loadImage_some_iff.mp h
  exact ⟨hwf, by simp [hpc], by simp [hr, Status.legalAt]⟩

/-- Settles O49: no field the invariant speaks of depends on the presumed register and flag values. -/
theorem invariantAfterResetAndLoad : Obligations.InvariantAfterResetAndLoad := by
  refine ⟨⟨State.reset_mem_wf, by decide, rfl⟩, fun sp image s h => ?_⟩
  obtain h | h := h <;> exact loadImage_inv (by exact State.resetWith_mem_wf sp) rfl rfl h

end Sys2Proof.Proofs.StateRules
end

section
/-! Proofs of the statements about memory (20_memory.md). -/

namespace Sys2Proof.Proofs.MemoryRules

open Sys2Proof Sys2Proof.Machine Sys2Proof.Proofs.StateRules

section
variable {s t : State} {v : Byte}

/-- States with the same memory read alike at every address. -/
theorem memSameExcept_of_mem_eq (h : t.mem = s.mem) : MemSameExcept s t [] := fun a _ => readMem_congr h a

/-- The frame of a memory write: every address but the written one reads as before (rule R33). -/
theorem memSameExcept_of_mem_write {n : Nat} (h : t.mem = s.mem.write n v) : MemSameExcept s t [(n : Int)] :=
  fun _ ha => readMem_write_other h rfl (List.ne_of_not_mem_cons ha)

/-- A byte outside the opcode table at the PC makes the step raise `UnknownOpcode` (rule R64). -/
theorem stepRaises_of_readMem_unknown (hr : s.status = .running) (hv : readMem s s.pc.toNat = .ok v)
    (hno : lookupOpcode v = none) : StepRaises s (.unknownOpcode v) :=
  step_of_fetch_error hr (decodeFrom_error_iff.mpr (.inr (.inl ⟨v, hv, hno, rfl⟩)))

/-- HALT's opcode at the PC makes the step halt (rule R91). -/
theorem step_of_readMem_halt (hr : s.status = .running) (hv : readMem s s.pc.toNat = .ok 0x01) :
    step s = .next { s with status := .halted, pc := s.pc + 1 } :=
  step_of_fetch hr (decodeFrom_ok_iff_op.mpr ⟨.halt, hv, rfl⟩)

/-- A completed PUSH of a register other than R7 stores that register's value just below SP (rule R87). -/
theorem readMem_of_completes_push {a sp : Byte} (hc : Completes s (.push a) t) (ha : a ≠ 7)
    (hsp : s.reg 7 = some sp) (hv : s.reg a = some v) : readMem t (sp - 1).toNat = .ok v := by
  cases effect_of_completes hc with
  | @push _ sp' v' hsp' _ hv' =>
    obtain rfl : sp = sp' := Option.some.inj (hsp.symm.trans hsp')
    obtain rfl : v = v' := Option.some.inj (hv.symm.trans ((s.reg_setReg_other _ ha).symm.trans hv'))
    exact readMem_write_same rfl (sp - 1).isLt

end

/-- Settles O34: a fault keeps the memory, and of the effects only PUSH's and CALL's write a cell, the one just below
SP (`Effect.mem_eq`). -/
theorem onlyPushAndCallWriteMemory : Obligations.OnlyPushAndCallWriteMemory := by
  intro s t hstep
  obtain ⟨c, rfl, _⟩ | ⟨i, hi, he⟩ := step_effect hstep
  · exact .inl (memSameExcept_of_mem_eq rfl)
  obtain hm | ⟨a, sp, v, hop, hsp, h0, hm⟩ := he.mem_eq
  · exact .inl (memSameExcept_of_mem_eq hm)
  · have hbelow : ((sp - 1).toNat : Int) = (sp.toNat : Int) - 1 := by rw [byte_pred_toNat h0]; omega
    exact .inr ⟨a, sp, by simpa [hi] using hop, hsp, h0, hbelow ▸ memSameExcept_of_mem_write hm⟩

/-- Settles O40. The new PC is the address just below SP, where PUSH stored the value, so the next fetch reads it as its
opcode byte. -/
theorem storedByteIsFetchedNext : Obligations.StoredByteIsFetchedNext := by
  intro s t a sp v hc hr hsp haddr ha hv
  have hpc : t.pc.toNat = (sp - 1).toNat := by
    have hnext : t.pc.toNat = s.pc.toNat + 2 := nextPcOfEveryInstruction s t _ hc
    rw [byte_pred_toNat (by omega)]
    omega
  have hread : readMem t t.pc.toNat = .ok v := by
    rw [hpc]
    exact readMem_of_completes_push hc ha hsp hv
  have hrun : t.status = .running := by simp [(effect_of_completes hc).status_eq, hr]
  refine ⟨hread, stepRaises_of_readMem_unknown hrun hread, ?_⟩
  rintro rfl
  exact step_of_readMem_halt hrun hread

/-- Settles O38: the write's next state differs in the memory alone, whose reads `Memory.read_write` gives. -/
theorem readReturnsTheByteLastWritten : Obligations.ReadReturnsTheByteLastWritten := by
  intro s a v h0 h256
  lift a to ℕ using h0
  have hw : writeMem s a v = .ok { s with mem := s.mem.write a v } := writeMem_ok_iff.mpr ⟨by omega, rfl⟩
  exact ⟨_, hw, readMem_write_same rfl (by omega), memSameExcept_of_mem_write rfl, rfl, rfl, rfl, rfl, rfl⟩

end Sys2Proof.Proofs.MemoryRules
end

section
/-! Proofs of the statements about encoding and decoding (30_encoding.md). -/

namespace Sys2Proof.Proofs.EncodingRules

open Sys2Proof

/-- The byte strings that decode to an instruction: those that begin with its encoding, if it is well-formed (rules R50,
R51, R57). -/
theorem decode_ok_iff {bs : List Byte} {i : Instr} : decode bs = .ok i ↔ i.wf = true ∧ encode i <+: bs := by
  rw [List.prefix_iff_getElem?]
  constructor
  · intro h
    obtain ⟨hw, hread⟩ := decodeFrom_ok_reads h
    exact ⟨hw, fun n hn => byteAt_ok_iff.mp (hread n hn)⟩
  · rintro ⟨hw, hprefix⟩
    exact decodeFrom_of_reads hw fun n hn => byteAt_ok_iff.mpr (hprefix n hn)

/-- Settles O1: an encoding begins any string that continues it. -/
theorem decodeOfEncodeIsIdentity : Obligations.DecodeOfEncodeIsIdentity :=
  fun i rest hw => decode_ok_iff.mpr ⟨hw, List.prefix_append (encode i) rest⟩

/-- Settles O2: the encoding begins the decoded string. -/
theorem decodedBytesAreTheEncoding : Obligations.DecodedBytesAreTheEncoding := by
  intro bs i h
  obtain ⟨hw, rest, hbs⟩ := decode_ok_iff.mp h
  exact ⟨hw, rest, hbs.symm⟩

/-- Settles O3: each string written out is its instruction's encoding, which decodes to it by O1. -/
theorem writtenOutWordsDecode : Obligations.WrittenOutWordsDecode := by
  have hdec (i : Instr) (hw : i.wf = true) : decode (encode i) = .ok i :=
    decode_ok_iff.mpr ⟨hw, List.prefix_rfl⟩
  exact ⟨hdec .halt rfl, hdec .ret rfl, hdec (.push 3) rfl, hdec (.pop 7) rfl, hdec (.prn 1) rfl, hdec (.call 2) rfl,
    hdec (.jmp 4) rfl, hdec (.jeq 5) rfl, hdec (.jne 6) rfl, hdec (.ldi 0 255) rfl, hdec (.add 1 2) rfl,
    hdec (.mul 3 4) rfl, hdec (.cmp 5 6) rfl⟩

/-- No operation takes more than two operand bytes (rule R51). -/
theorem operandCount_le_two (o : Op) : o.operandCount ≤ 2 := by
  unfold Op.operandCount
  cases o.format <;> decide

/-- Bit 5 marks the operations of the ALU (rule R55). -/
theorem opcode_B_eq_one_iff (o : Op) : (opcodeFields o.opcode).B = 1 ↔ o = .add ∨ o = .mul ∨ o = .cmp := by
  cases o <;> decide

/-- Bit 4 marks the operations that set the PC themselves (rule R55). -/
theorem opcode_C_eq_one_iff (o : Op) :
    (opcodeFields o.opcode).C = 1 ↔ o = .call ∨ o = .ret ∨ o = .jmp ∨ o = .jeq ∨ o = .jne := by
  cases o <;> decide

/-- Settles O4. The `AA` bits are the operand count, which is at most 2. -/
theorem structuralBitsAgreeWithTheTable : Obligations.StructuralBitsAgreeWithTheTable := by
  intro o
  have hAA := Laws.EncodingShape.aa_eq_operandCount o
  refine ⟨hAA, opcode_B_eq_one_iff o, opcode_C_eq_one_iff o, fun h3 => ?_⟩
  have hcount : 3 = o.operandCount := (congrArg BitVec.toNat h3).symm.trans hAA
  have := operandCount_le_two o
  omega

end Sys2Proof.Proofs.EncodingRules
end

section
/-! Proofs of the statements about fetch, decode and the loop (40_dispatch_and_loop.md). -/

namespace Sys2Proof.Proofs.DispatchRules

open Sys2Proof Sys2Proof.Machine Sys2Proof.Proofs.StateRules

/-! ### Decoding by format -/

section
variable {ε : Type} {read : Nat → Except ε Byte} {reject : Reject → ε} {o : Op} {a b : Byte} {e : ε}

theorem operandCount_eq_one_iff : o.operandCount = 1 ↔ o.format = .R := by
  unfold Op.operandCount
  cases o.format <;> decide

theorem operandCount_eq_two_iff : o.operandCount = 2 ↔ o.format = .RR ∨ o.format = .RI := by
  unfold Op.operandCount
  cases o.format <;> decide

/-- The operations of format R share one decoder; each has its own constructor, which keeps the operand byte. -/
theorem decodeOp_eq_decodeR (ho : o.format = .R) : ∃ mk : Byte → Instr,
    (∀ a, (mk a).op = o ∧ (mk a).operandBytes = [a]) ∧ decodeOp read reject o = decodeR read reject mk := by
  cases o
  case push | pop | prn | call | jmp | jeq | jne =>
    refine ⟨_, ?_, rfl⟩
    exact fun _ => ⟨rfl, rfl⟩
  all_goals cases ho

/-- The operations of format RR share one decoder; each has its own constructor, which keeps the operand bytes. -/
theorem decodeOp_eq_decodeRR (ho : o.format = .RR) : ∃ mk : Byte → Byte → Instr,
    (∀ a b, (mk a b).op = o ∧ (mk a b).operandBytes = [a, b]) ∧
      decodeOp read reject o = decodeRR read reject mk := by
  cases o
  case add | mul | cmp =>
    refine ⟨_, ?_, rfl⟩
    exact fun _ _ => ⟨rfl, rfl⟩
  all_goals cases ho

/-- LDI is the one operation of format RI. -/
theorem eq_ldi_of_format (ho : o.format = .RI) : o = .ldi := by
  cases o
  case ldi => rfl
  all_goals cases ho

/-- An operation with operands fails when its first operand byte cannot be read. -/
theorem decodeOp_error_of_first (hcount : 1 ≤ o.operandCount) (h1 : read 1 = .error e) :
    decodeOp read reject o = .error e := by
  cases ho : o.format with
  | Z => simp [Op.operandCount, ho, Format.operandCount] at hcount
  | R =>
    obtain ⟨mk, _, hdec⟩ := decodeOp_eq_decodeR ho
    exact hdec.trans (decodeR_error_iff.mpr (.inl h1))
  | RR =>
    obtain ⟨mk, _, hdec⟩ := decodeOp_eq_decodeRR ho
    exact hdec.trans (decodeRR_error_iff.mpr (.inl h1))
  | RI =>
    obtain rfl := eq_ldi_of_format ho
    exact decodeRI_error_iff.mpr (.inl h1)

/-- An operation with two operands fails when its second operand byte cannot be read. -/
theorem decodeOp_error_of_second (hcount : o.operandCount = 2) (h1 : read 1 = .ok a) (h2 : read 2 = .error e) :
    decodeOp read reject o = .error e := by
  obtain ho | ho := operandCount_eq_two_iff.mp hcount
  · obtain ⟨mk, _, hdec⟩ := decodeOp_eq_decodeRR ho
    exact hdec.trans (decodeRR_error_iff.mpr (.inr ⟨a, h1, .inl h2⟩))
  · obtain rfl := eq_ldi_of_format ho
    exact decodeRI_error_iff.mpr (.inr ⟨a, h1, .inl h2⟩)

theorem decodeOp_ok_of_one (hcount : o.operandCount = 1) (h1 : read 1 = .ok a) (ha : isRegIndex a = true) :
    ∃ i, i.op = o ∧ i.operandBytes = [a] ∧ decodeOp read reject o = .ok i := by
  obtain ⟨mk, hmk, hdec⟩ := decodeOp_eq_decodeR (operandCount_eq_one_iff.mp hcount)
  obtain ⟨hop, hbytes⟩ := hmk a
  exact ⟨mk a, hop, hbytes, hdec.trans (decodeR_ok_iff.mpr ⟨a, h1, ha, rfl⟩)⟩

theorem decodeOp_ok_of_two (hcount : o.operandCount = 2) (h1 : read 1 = .ok a) (h2 : read 2 = .ok b)
    (ha : isRegIndex a = true) (hb : isRegIndex b = true) :
    ∃ i, i.op = o ∧ i.operandBytes = [a, b] ∧ decodeOp read reject o = .ok i := by
  obtain ho | ho := operandCount_eq_two_iff.mp hcount
  · obtain ⟨mk, hmk, hdec⟩ := decodeOp_eq_decodeRR ho
    obtain ⟨hop, hbytes⟩ := hmk a b
    exact ⟨mk a b, hop, hbytes, hdec.trans (decodeRR_ok_iff.mpr ⟨a, b, h1, h2, ha, hb, rfl⟩)⟩
  · obtain rfl := eq_ldi_of_format ho
    exact ⟨.ldi a b, rfl, rfl, decodeRI_ok_iff.mpr ⟨a, b, h1, h2, ha, rfl⟩⟩

/-- A first operand that names no register is rejected for format R. -/
theorem decodeOp_rejects_R (ho : o.format = .R) (h1 : read 1 = .ok a) (ha : isRegIndex a = false) :
    decodeOp read reject o = .error (reject (.registerIndexOutOfRange a)) := by
  obtain ⟨mk, _, hdec⟩ := decodeOp_eq_decodeR ho
  exact hdec.trans (decodeR_error_iff.mpr (.inr ⟨a, h1, ha, rfl⟩))

/-- A first operand that names no register is rejected for the formats RR and RI, once both bytes are read. -/
theorem decodeOp_rejects_first (ho : o.format = .RR ∨ o.format = .RI) (h1 : read 1 = .ok a) (h2 : read 2 = .ok b)
    (ha : isRegIndex a = false) : decodeOp read reject o = .error (reject (.registerIndexOutOfRange a)) := by
  obtain ho | ho := ho
  · obtain ⟨mk, _, hdec⟩ := decodeOp_eq_decodeRR ho
    exact hdec.trans (decodeRR_error_iff.mpr (.inr ⟨a, h1, .inr ⟨b, h2, .inl ⟨ha, rfl⟩⟩⟩))
  · obtain rfl := eq_ldi_of_format ho
    exact decodeRI_error_iff.mpr (.inr ⟨a, h1, .inr ⟨b, h2, ha, rfl⟩⟩)

/-- A second operand that names no register is rejected for format RR, after the first has passed. -/
theorem decodeOp_rejects_second (ho : o.format = .RR) (h1 : read 1 = .ok a) (h2 : read 2 = .ok b)
    (ha : isRegIndex a = true) (hb : isRegIndex b = false) :
    decodeOp read reject o = .error (reject (.registerIndexOutOfRange b)) := by
  obtain ⟨mk, _, hdec⟩ := decodeOp_eq_decodeRR ho
  exact hdec.trans (decodeRR_error_iff.mpr (.inr ⟨a, h1, .inr ⟨b, h2, .inr ⟨ha, hb, rfl⟩⟩⟩))

end

theorem isRegIndex_eq_false {r : Byte} (h : 8 ≤ r.toNat) : isRegIndex r = false :=
  Bool.eq_false_iff.mpr fun hr => absurd (isRegIndex_iff.mp hr) (by omega)

/-! ### Fetching from the PC upward -/

/-- The byte `n` places after the PC: the source from which `fetchInstr` decodes (`fetchInstr_eq`). -/
def fetchByte (s : State) (n : Nat) : Except FaultCause Byte := readMem s ((s.pc.toNat : Int) + n)

section
variable {s : State} {o : Op} {i : Instr} {c : FaultCause} {n : Nat}

theorem fetchInstr_eq (s : State) : fetchInstr s = decodeFrom (fetchByte s) rejectFault := rfl

/-- A fetch past the last address faults with that address (rule R38). -/
theorem fetchByte_error_of_range {x : Int} (hx : (s.pc.toNat : Int) + n = x) (hrange : 256 ≤ x) :
    fetchByte s n = .error (.addressOutOfRange x) :=
  readMem_error_iff.mpr (.inl ⟨by rw [hx], by omega⟩)

/-- A fetch from a cell that holds `⊥` faults with its address (rule R28). -/
theorem fetchByte_error_of_undefined (hn : s.pc.toNat + n < 256) (hm : s.mem.read (s.pc.toNat + n) = none) :
    fetchByte s n = .error (.undefinedValue (.memory (s.pc.toNat + n))) :=
  readMem_error_iff.mpr (.inr ⟨rfl, by omega, hm⟩)

theorem fetchByte_ok {v : Byte} (hn : s.pc.toNat + n < 256) (hm : s.mem.read (s.pc.toNat + n) = some v) :
    fetchByte s n = .ok v :=
  readMem_ok_iff.mpr ⟨by omega, hm⟩

/-- A fault of the opcode fetch is the step's. -/
theorem stepRaises_of_fetchByte_zero (hr : s.status = .running) (h : fetchByte s 0 = .error c) : StepRaises s c :=
  step_of_fetch_error hr ((fetchInstr_eq s).trans (decodeFrom_error_iff.mpr (.inl h)))

/-- With a defined opcode at the PC, a fault of the operand fetch and check is the step's. -/
theorem stepRaises_of_decodeOp (hr : s.status = .running) (h0 : fetchByte s 0 = .ok o.opcode)
    (h : decodeOp (fetchByte s) rejectFault o = .error c) : StepRaises s c :=
  step_of_fetch_error hr ((fetchInstr_eq s).trans (decodeFrom_error_iff.mpr (.inr (.inr ⟨o, h0, h⟩))))

/-- With a defined opcode at the PC, the step runs the instruction that the operand fetch and check give. -/
theorem step_of_decodeOp (hr : s.status = .running) (h0 : fetchByte s 0 = .ok o.opcode)
    (h : decodeOp (fetchByte s) rejectFault o = .ok i) : step s = exec i s :=
  step_of_fetch hr ((fetchInstr_eq s).trans (decodeFrom_ok_iff_op.mpr ⟨o, h0, h⟩))

end

/-! ### The statements -/

/-- Settles O8. Each clause is a clause of the operand fetch: no operand byte for HALT and RET, a failing read of the
first or of the second one, or both read. -/
theorem operandFetchReadsTheTableCount : Obligations.OperandFetchReadsTheTableCount := by
  intro s o hr h0
  refine ⟨?halt, ?ret, fun hcount hpc => ?range1, fun hcount hpc hm => ?undefined1,
    fun a hcount hma => ⟨fun hpc => ?range2, fun hpc hm => ?undefined2⟩, fun a hcount h1 ha => ?one,
    fun a b hcount h1 h2 ha hb => ?two⟩
  case halt | ret =>
    rintro rfl
    exact step_of_decodeOp hr h0 rfl
  case range1 =>
    exact stepRaises_of_decodeOp hr h0
      (decodeOp_error_of_first hcount (fetchByte_error_of_range (by omega) le_rfl))
  case undefined1 =>
    exact stepRaises_of_decodeOp hr h0
      (decodeOp_error_of_first hcount (fetchByte_error_of_undefined (by omega) hm))
  case range2 =>
    exact stepRaises_of_decodeOp hr h0 (decodeOp_error_of_second hcount (fetchByte_ok (by omega) hma)
      (fetchByte_error_of_range (by omega) le_rfl))
  case undefined2 =>
    exact stepRaises_of_decodeOp hr h0 (decodeOp_error_of_second hcount (fetchByte_ok (by omega) hma)
      (fetchByte_error_of_undefined (by omega) hm))
  case one =>
    obtain ⟨i, hop, hbytes, hdec⟩ := decodeOp_ok_of_one (read := fetchByte s) hcount h1 (isRegIndex_iff.mpr ha)
    exact ⟨i, hop, hbytes, step_of_decodeOp hr h0 hdec⟩
  case two =>
    obtain ⟨i, hop, hbytes, hdec⟩ :=
      decodeOp_ok_of_two (read := fetchByte s) hcount h1 h2 (isRegIndex_iff.mpr ha) (isRegIndex_iff.mpr hb)
    exact ⟨i, hop, hbytes, step_of_decodeOp hr h0 hdec⟩

/-- Settles O9. The decoder checks `a` in each of the three formats and `b` in RR alone, so LDI, the one operation of
format RI, takes any immediate. -/
theorem registerIndicesAreCheckedAtDecode : Obligations.RegisterIndicesAreCheckedAtDecode := by
  intro s o a b hr h0 h1
  refine ⟨fun ho ha => ?_, fun h2 => ⟨fun ho ha => ?_, fun ho ha hb => ?_, fun ho ha => ?_⟩⟩
  · exact stepRaises_of_decodeOp hr h0 (decodeOp_rejects_R ho h1 (isRegIndex_eq_false ha))
  · exact stepRaises_of_decodeOp hr h0 (decodeOp_rejects_first ho h1 h2 (isRegIndex_eq_false ha))
  · exact stepRaises_of_decodeOp hr h0
      (decodeOp_rejects_second ho h1 h2 (isRegIndex_iff.mpr ha) (isRegIndex_eq_false hb))
  · obtain rfl := eq_ldi_of_format ho
    exact step_of_decodeOp hr h0 (decodeRI_ok_iff.mpr ⟨a, b, h1, h2, isRegIndex_iff.mpr ha, rfl⟩)

/-- Settles O7: a byte that is no operation's opcode is rejected by the lookup, before any operand is read. -/
theorem undefinedOpcodeFaultsAtOnce : Obligations.UndefinedOpcodeFaultsAtOnce := by
  intro s op hr hread hnot
  have hno : lookupOpcode op = none := by
    refine lookupOpcode_none_iff.mpr ?_
    rintro o rfl
    cases o <;> exact hnot (by decide)
  exact ⟨MemoryRules.stepRaises_of_readMem_unknown hr hread hno, rfl⟩

/-- Settles O10: a running step takes a fault or commits a handler, and either way answers a next state
(`step_next_iff_running`); the terminal statuses are `step`'s first two branches. -/
theorem stepExistsExactlyWhenRunning : Obligations.StepExistsExactlyWhenRunning :=
  fun _ => ⟨step_next_iff_running, fun hh => by simp [step, hh], fun _ hf => by simp [step, hf]⟩

/-- Settles O5: the decoded string begins with the instruction's encoding, which therefore stands at the PC. -/
theorem stepRunsTheDecodedInstruction : Obligations.StepRunsTheDecodedInstruction := by
  intro s bs i hr hread hdec
  obtain ⟨hw, hprefix⟩ := EncodingRules.decode_ok_iff.mp hdec
  refine step_of_fetch hr (decodeFrom_of_reads hw fun n hn => ?_)
  rw [hprefix.getElem hn]
  exact hread n (hn.trans_le hprefix.length_le)

/-- Settles O6: the opcode byte is fetched like any other, at distance 0 from the PC. -/
theorem opcodeFetchFaults : Obligations.OpcodeFetchFaults := by
  intro s hr
  refine ⟨fun hpc => ?_, fun hpc hm => ?_⟩
  · exact stepRaises_of_fetchByte_zero hr (fetchByte_error_of_range (n := 0) (by omega) (by omega))
  · exact stepRaises_of_fetchByte_zero hr (fetchByte_error_of_undefined (n := 0) hpc hm)

end Sys2Proof.Proofs.DispatchRules
end

section
/-! Proofs of the statements about the ALU (41_alu.md). -/

namespace Sys2Proof.Proofs.AluRules

open Sys2Proof Sys2Proof.Machine Sys2Proof.Proofs.StateRules

/-! ### What the ALU computes -/

section
variable (old : Flags) (va vb : Byte)

theorem aluAdd_toNat : (aluAdd va vb).toNat = (va.toNat + vb.toNat) % 256 := by
  rw [aluAdd, BitVec.toNat_ofNat]
  exact Nat.mod_mod _ 256

theorem aluMul_toNat : (aluMul va vb).toNat = (va.toNat * vb.toNat) % 256 := by
  rw [aluMul, BitVec.toNat_ofNat]
  exact Nat.mod_mod _ 256

/-- With `FLAGS_CLEAR_ON_CMP` each flag is its comparison's result (rule R84). -/
theorem compareFlags_true : compareFlags true old va vb =
    { E := some (decide (va.toNat = vb.toNat))
      L := some (decide (va.toNat < vb.toNat))
      G := some (decide (va.toNat > vb.toNat)) } := rfl

/-- Without `FLAGS_CLEAR_ON_CMP` a flag whose comparison fails is kept (rule R84). -/
theorem compareFlags_false : compareFlags false old va vb =
    { E := if va.toNat = vb.toNat then some true else old.E
      L := if va.toNat < vb.toNat then some true else old.L
      G := if va.toNat > vb.toNat then some true else old.G } := by
  simp [compareFlags, stickyFlag]

/-- Two bytes are equal, or one of them is less, so CMP sets exactly one flag and clears the others. -/
theorem compareFlags_true_cases :
    compareFlags true old va vb = { E := some true, L := some false, G := some false } ∨
    compareFlags true old va vb = { E := some false, L := some true, G := some false } ∨
    compareFlags true old va vb = { E := some false, L := some false, G := some true } := by
  rw [compareFlags_true]
  obtain hlt | heq | hgt := lt_trichotomy va.toNat vb.toNat
  · exact .inr (.inl (by simp [hlt, hlt.ne, hlt.le]))
  · exact .inl (by simp [heq])
  · exact .inr (.inr (by simp [hgt, hgt.ne', hgt.le]))

end

/-! ### What the handlers answer -/

section
variable {s : State} {a b : Byte}

/-- The frame of a handler that writes one register and advances the PC. -/
theorem frame_setReg_advance {v : Byte} {n : Nat} : Frame s ((s.setReg a v).advance n) [a] [] :=
  ⟨fun _ hr => s.reg_setReg_other v (List.ne_of_not_mem_cons hr), MemoryRules.memSameExcept_of_mem_eq (by simp),
    by simp, by simp, by simp⟩

/-- What ADD and MUL have in common: register `a` holds the result `v`, the PC is 3 further, all else is kept (rules
R82, R83). -/
theorem setReg_advance_spec {v : Byte} {n : Nat} (ha : a.toNat < 8) (hv : v.toNat = n) :
    (∃ w, ((s.setReg a v).advance 3).reg a = some w ∧ w.toNat = n) ∧
      ((s.setReg a v).advance 3).pc = s.pc + 3 ∧ Frame s ((s.setReg a v).advance 3) [a] [] :=
  ⟨⟨v, s.reg_setReg_same v ha, hv⟩, by simp, frame_setReg_advance⟩

variable {clear : Bool} {op : AluOp}

/-- A first operand that holds `⊥` faults (rule R104). -/
theorem aluHandler_undefined_first (hop : op = .add ∨ op = .mul ∨ op = .cmp) (ha : a.toNat < 8)
    (hn : s.reg a = none) : aluHandler clear op a b s = .error (.undefinedValue (.register a)) :=
  (aluHandler_error_iff hop).mpr (.inl (readReg_error_iff.mpr (.inr ⟨rfl, ha, hn⟩)))

/-- A second operand that holds `⊥` faults once the first is read (rules R79, R104). -/
theorem aluHandler_undefined_second {va : Byte} (hop : op = .add ∨ op = .mul ∨ op = .cmp) (ha : s.reg a = some va)
    (hb : b.toNat < 8) (hn : s.reg b = none) :
    aluHandler clear op a b s = .error (.undefinedValue (.register b)) :=
  (aluHandler_error_iff hop).mpr
    (.inr ⟨va, readReg_ok_iff.mpr ha, readReg_error_iff.mpr (.inr ⟨rfl, hb, hn⟩)⟩)

theorem execCmpWith_of_defined {va vb : Byte} (ha : s.reg a = some va) (hb : s.reg b = some vb) :
    execCmpWith clear a b s =
      .next { s with flags := compareFlags clear s.flags va vb, pc := s.pc + 3 } :=
  commit_next_iff.mpr (.inl (aluHandler_cmp_ok_iff.mpr ⟨va, vb, ha, hb, rfl⟩))

theorem execCmpWith_of_error {c : FaultCause} (h : aluHandler clear .cmp a b s = .error c) :
    execCmpWith clear a b s = .next (takeFault c s) :=
  commit_next_iff.mpr (.inr ⟨c, h, rfl⟩)

end

/-! ### The statements -/

/-- Settles O18: the two values of the parameter differ in `compareFlags` alone. -/
theorem cmpWritesTheFlags : Obligations.CmpWritesTheFlags := by
  intro s a b
  have hexec : exec (.cmp a b) s = execCmpWith true a b s := rfl
  refine ⟨rfl, hexec, fun va vb ha hb => ⟨?_, ?_⟩, fun clear => ⟨fun ha hn => ?_, fun va ha hb hn => ?_⟩⟩
  · rw [hexec, execCmpWith_of_defined ha hb, compareFlags_true]
  · rw [execCmpWith_of_defined ha hb, compareFlags_false]
  · exact execCmpWith_of_error (aluHandler_undefined_first (.inr (.inr rfl)) ha hn)
  · exact execCmpWith_of_error (aluHandler_undefined_second (.inr (.inr rfl)) ha hb hn)

/-- Settles O19: a CMP that faults is not running, and one that completes leaves the flags of a comparison. -/
theorem cmpSetsExactlyOneFlag : Obligations.CmpSetsExactlyOneFlag := by
  intro s t a b hexec _ hrun
  obtain hk | ⟨c, _, rfl⟩ := exec_next_iff.mp hexec
  · obtain ⟨va, vb, _, _, rfl⟩ := aluHandler_cmp_ok_iff.mp hk
    exact compareFlags_true_cases s.flags va vb
  · cases hrun

/-- Settles O16: `aluAdd` is the sum modulo 256 of two values that are both read before register `a` is written. -/
theorem addWritesTheSumModulo256 : Obligations.AddWritesTheSumModulo256 := by
  intro s a b
  refine ⟨rfl, fun va vb ha hb => ?_, fun ha hn => ?_, fun va ha hb hn => ?_⟩
  · exact ⟨_, exec_of_ok (aluHandler_add_ok_iff.mpr ⟨va, vb, ha, hb, rfl⟩),
      setReg_advance_spec (State.reg_lt ha) (aluAdd_toNat va vb)⟩
  · exact raises_of_error (aluHandler_undefined_first (.inl rfl) ha hn)
  · exact raises_of_error (aluHandler_undefined_second (.inl rfl) ha hb hn)

/-- Settles O17, as O16 with `aluMul` for `aluAdd`. -/
theorem mulWritesTheProductModulo256 : Obligations.MulWritesTheProductModulo256 := by
  intro s a b
  refine ⟨rfl, fun va vb ha hb => ?_, fun ha hn => ?_, fun va ha hb hn => ?_⟩
  · exact ⟨_, exec_of_ok (aluHandler_mul_ok_iff.mpr ⟨va, vb, ha, hb, rfl⟩),
      setReg_advance_spec (State.reg_lt ha) (aluMul_toNat va vb)⟩
  · exact raises_of_error (aluHandler_undefined_first (.inr (.inl rfl)) ha hn)
  · exact raises_of_error (aluHandler_undefined_second (.inr (.inl rfl)) ha hb hn)

end Sys2Proof.Proofs.AluRules
end

section
/-! Proofs of the statements about the register and stack instructions (42_register_stack.md). -/

namespace Sys2Proof.Proofs.RegisterStackRules

open Sys2Proof Sys2Proof.Machine Sys2Proof.Proofs.StateRules

/-! ### Frames -/

section
variable {s t u : State} {a v : Byte} {ds ds' : List Byte} {as as' : List Int}

/-- Frames compose: what two updates in a row may change is what either may change. -/
theorem frame_trans (h : Frame s t ds as) (h' : Frame t u ds' as') : Frame s u (ds ++ ds') (as ++ as') := by
  obtain ⟨hreg, hmem, hflags, hstatus, hout⟩ := h
  obtain ⟨hreg', hmem', hflags', hstatus', hout'⟩ := h'
  refine ⟨fun i hi => ?_, fun x hx => ?_, hflags'.trans hflags, hstatus'.trans hstatus, hout'.trans hout⟩
  · rw [List.mem_append, not_or] at hi
    exact (hreg' i hi.2).trans (hreg i hi.1)
  · rw [List.mem_append, not_or] at hx
    exact (hmem' x hx.2).trans (hmem x hx.1)

/-- A frame may be stated with more registers than were written. -/
theorem frame_mono_regs (h : Frame s t ds as) (hds : ds ⊆ ds') : Frame s t ds' as := by
  obtain ⟨hreg, hrest⟩ := h
  exact ⟨fun i hi => hreg i fun hmem => hi (hds hmem), hrest⟩

/-! A frame does not speak of the PC. -/

theorem frame_advance {n : Nat} (h : Frame s t ds as) : Frame s (t.advance n) ds as := h

theorem frame_jumpTo (h : Frame s t ds as) : Frame s (t.jumpTo v) ds as := h

theorem frame_setReg : Frame s (s.setReg a v) [a] [] := AluRules.frame_setReg_advance (n := 0)

theorem frame_write (n : Nat) : Frame s { s with mem := s.mem.write n v } [] [(n : Int)] :=
  ⟨fun _ _ => rfl, MemoryRules.memSameExcept_of_mem_write rfl, rfl, rfl, rfl⟩

end

/-! ### Pushing a byte: PUSH and CALL -/

/-- The state after a push of `v` where SP holds `sp`, before the PC changes (rules R16, R87, R89);
`exec_push_eq` and `exec_call_eq` tie it to the model. -/
def pushByte (s : State) (sp v : Byte) : State :=
  { s.setReg 7 (sp - 1) with mem := s.mem.write (sp - 1).toNat v }

section
variable {s t u : State} {a sp v : Byte}

/-- The address just below SP, as the claims and as the model write it. -/
theorem pred_address (h0 : sp.toNat ≠ 0) : ((sp - 1).toNat : Int) = (sp.toNat : Int) - 1 := by
  rw [byte_pred_toNat h0]
  omega

theorem exec_push_eq (hsp : s.reg 7 = some sp) (h0 : sp.toNat ≠ 0) (hv : (s.setReg 7 (sp - 1)).reg a = some v) :
    exec (.push a) s = .next ((pushByte s sp v).advance 2) :=
  exec_of_ok (pushHandler_ok_iff.mpr ⟨sp, v, hsp, h0, hv, rfl⟩)

theorem exec_call_eq (hpc : s.pc.toNat ≤ 253) (hsp : s.reg 7 = some sp) (h0 : sp.toNat ≠ 0)
    (hv : (s.setReg 7 (sp - 1)).reg a = some v) :
    exec (.call a) s = .next ((pushByte s sp (BitVec.ofNat 8 (s.pc.toNat + 2))).jumpTo v) :=
  exec_of_ok (callHandler_ok_iff.mpr ⟨by omega, sp, v, hsp, h0, hv, rfl⟩)

/-- CALL's return address fits a byte wherever CALL completes. -/
theorem returnAddress_toNat (hpc : s.pc.toNat + 2 ≤ 255) :
    (BitVec.ofNat 8 (s.pc.toNat + 2)).toNat = s.pc.toNat + 2 := by
  rw [BitVec.toNat_ofNat]
  omega

theorem pushByte_sp : (pushByte s sp v).reg 7 = some (sp - 1) := s.reg_setReg_sp (sp - 1)

/-- A push lowers SP by exactly 1, without wrapping (rule R16). -/
theorem setReg_sp_pred_lowers_sp (h0 : sp.toNat ≠ 0) :
    ∃ w, (s.setReg 7 (sp - 1)).reg 7 = some w ∧ w.toNat + 1 = sp.toNat :=
  ⟨sp - 1, s.reg_setReg_sp (sp - 1), by rw [byte_pred_toNat h0]; omega⟩

theorem readMem_pushByte (h0 : sp.toNat ≠ 0) : readMem (pushByte s sp v) ((sp.toNat : Int) - 1) = .ok v := by
  rw [← pred_address h0]
  exact readMem_write_same rfl (sp - 1).isLt

theorem frame_pushByte (h0 : sp.toNat ≠ 0) : Frame s (pushByte s sp v) [7] [(sp.toNat : Int) - 1] := by
  have hwrite : Frame (s.setReg 7 (sp - 1)) (pushByte s sp v) [] [((sp - 1).toNat : Int)] := by
    rw [pushByte, ← s.setReg_mem 7 (sp - 1)]
    exact frame_write _
  rw [← pred_address h0]
  exact frame_trans frame_setReg hwrite

/-- A state that keeps SP and the pushed cell is ready to pop the pushed byte (rule R92). -/
theorem ready_to_pop_pushByte (h0 : sp.toNat ≠ 0) (hsp : u.reg 7 = (pushByte s sp v).reg 7)
    (hcell : readMem u ((sp.toNat : Int) - 1) = readMem (pushByte s sp v) ((sp.toNat : Int) - 1)) :
    u.reg 7 = some (sp - 1) ∧ u.mem.read (sp - 1).toNat = some v ∧ (sp - 1).toNat ≠ 255 := by
  rw [readMem_pushByte h0, ← pred_address h0] at hcell
  obtain ⟨_, hread⟩ := readMem_ok_iff.mp hcell
  have hlt := sp.isLt
  exact ⟨hsp.trans pushByte_sp, hread, by rw [byte_pred_toNat h0]; omega⟩

/-! The faults of a push, in their order: SP, then the operand. -/

theorem decSP_error_of_undefined (h : s.reg 7 = none) : decSP s = .error (.undefinedValue (.register 7)) :=
  decSP_error_iff.mpr (.inl ⟨rfl, h⟩)

theorem decSP_error_of_zero (h : s.reg 7 = some 0) : decSP s = .error (.addressOutOfRange (-1)) :=
  decSP_error_iff.mpr (.inr ⟨rfl, 0, h, rfl⟩)

/-- Moving SP does not define another register. -/
theorem readReg_setReg_sp_error (ha7 : a ≠ 7) (ha : a.toNat < 8) (hn : s.reg a = none) :
    readReg (s.setReg 7 v) a = .error (.undefinedValue (.register a)) :=
  readReg_error_iff.mpr (.inr ⟨rfl, ha, (s.reg_setReg_other v ha7).trans hn⟩)

end

/-! ### Popping a byte: POP and RET -/

section
variable {s : State} {a sp sp' v : Byte}

/-- POP completes; `sp'` is what SP holds once the register is written, so the popped byte itself for `POP R7`
(rule R88). -/
theorem exec_pop_eq (ha : a.toNat < 8) (hsp : s.reg 7 = some sp) (hv : s.mem.read sp.toNat = some v)
    (hsp' : (s.setReg a v).reg 7 = some sp') (htop : sp'.toNat ≠ 255) :
    exec (.pop a) s = .next (((s.setReg a v).setReg 7 (sp' + 1)).advance 2) :=
  exec_of_ok (popHandler_ok_iff.mpr ⟨sp, v, sp', hsp, hv, ha, hsp', htop, rfl⟩)

theorem exec_ret_eq (hsp : s.reg 7 = some sp) (hv : s.mem.read sp.toNat = some v) (htop : sp.toNat ≠ 255) :
    exec .ret s = .next ((s.setReg 7 (sp + 1)).jumpTo v) :=
  exec_of_ok (retHandler_ok_iff.mpr ⟨sp, v, hsp, hv, htop, rfl⟩)

/-- A pop raises SP by exactly 1, without wrapping (rule R16). -/
theorem setReg_sp_succ_raises_sp (htop : sp.toNat ≠ 255) :
    ∃ w, (s.setReg 7 (sp + 1)).reg 7 = some w ∧ w.toNat = sp.toNat + 1 :=
  ⟨sp + 1, s.reg_setReg_sp (sp + 1), byte_succ_toNat htop⟩

/-- POP's two register writes leave the popped byte in a register other than R7. -/
theorem reg_popped (ha7 : a ≠ 7) (ha : a.toNat < 8) : ((s.setReg a v).setReg 7 sp').reg a = some v :=
  ((s.setReg a v).reg_setReg_other sp' ha7).trans (s.reg_setReg_same v ha)

theorem frame_popped : Frame s ((s.setReg a v).setReg 7 sp') [a, 7] [] := frame_trans frame_setReg frame_setReg

/-- Writing a register other than R7 leaves SP alone. -/
theorem setReg_keeps_sp (ha7 : a ≠ 7) (hsp : s.reg 7 = some sp) : (s.setReg a v).reg 7 = some sp :=
  (s.reg_setReg_other v ha7.symm).trans hsp

/-! The faults of a pop, in their order: SP, the cell, the new SP. -/

theorem readTop_error_of_undefined_sp (h : s.reg 7 = none) : readTop s = .error (.undefinedValue (.register 7)) :=
  readTop_error_iff.mpr (.inl ⟨rfl, h⟩)

theorem readTop_error_of_undefined_cell (hsp : s.reg 7 = some sp) (hv : s.mem.read sp.toNat = none) :
    readTop s = .error (.undefinedValue (.memory sp.toNat)) :=
  readTop_error_iff.mpr (.inr ⟨sp, hsp, hv, rfl⟩)

theorem incSP_error_of_top (hsp : s.reg 7 = some sp) (htop : sp.toNat = 255) :
    incSP s = .error (.addressOutOfRange 256) :=
  incSP_error_iff.mpr (.inr ⟨rfl, sp, hsp, htop⟩)

theorem pop_raises_of_top (ha : a.toNat < 8) (hsp : s.reg 7 = some sp) (hv : s.mem.read sp.toNat = some v)
    (hsp' : (s.setReg a v).reg 7 = some sp') (htop : sp'.toNat = 255) :
    Raises (.pop a) s (.addressOutOfRange 256) :=
  raises_of_error (popHandler_error_iff.mpr
    (.inr ⟨v, readTop_ok_iff.mpr ⟨sp, hsp, hv⟩, .inr ⟨ha, incSP_error_of_top hsp' htop⟩⟩))

end

/-! ### The stack instructions -/

/-- Settles O22. The operand is read after SP moved, so for R7 it is the decremented SP, and for every other register
what it was. -/
theorem pushStoresBelowTheStackPointer : Obligations.PushStoresBelowTheStackPointer := by
  intro s a
  refine ⟨rfl, fun sp v hsp h0 hv => ?completes, fun hsp => ?zero, fun sp hsp h0 ha7 ha hn => ?undefinedOperand,
    fun hn => ?undefinedSp⟩
  case completes =>
    have hread : (s.setReg 7 (sp - 1)).reg a = some v := (s.reg_setReg (sp - 1) (by decide) a).trans hv
    exact ⟨_, exec_push_eq hsp h0 hread, setReg_sp_pred_lowers_sp h0, readMem_pushByte h0, by simp [pushByte],
      frame_advance (frame_pushByte h0)⟩
  case zero => exact raises_of_error (pushHandler_error_iff.mpr (.inl (decSP_error_of_zero hsp)))
  case undefinedOperand =>
    exact raises_of_error (pushHandler_error_iff.mpr
      (.inr ⟨sp, hsp, h0, readReg_setReg_sp_error ha7 ha hn⟩))
  case undefinedSp => exact raises_of_error (pushHandler_error_iff.mpr (.inl (decSP_error_of_undefined hn)))

/-- Settles O23. What SP is incremented from is SP itself, or for `POP R7` the byte that was just popped into it. -/
theorem popLoadsFromTheStackPointer : Obligations.PopLoadsFromTheStackPointer := by
  intro s a ha
  refine ⟨rfl, fun hn => ?undefinedSp, fun sp hsp => ⟨fun hn => ?undefinedCell, fun v hv =>
    ⟨fun ha7 htop => ?completes, fun ha7 htop => ?top, ?completesR7, ?topR7⟩⟩⟩
  case undefinedSp => exact raises_of_error (popHandler_error_iff.mpr (.inl (readTop_error_of_undefined_sp hn)))
  case undefinedCell =>
    exact raises_of_error (popHandler_error_iff.mpr (.inl (readTop_error_of_undefined_cell hsp hn)))
  case completes =>
    exact ⟨_, exec_pop_eq ha hsp hv (setReg_keeps_sp ha7 hsp) htop, reg_popped ha7 ha, setReg_sp_succ_raises_sp htop,
      by simp, frame_advance frame_popped⟩
  case top => exact pop_raises_of_top ha hsp hv (setReg_keeps_sp ha7 hsp) htop
  case completesR7 =>
    rintro rfl htop
    exact ⟨_, exec_pop_eq ha hsp hv (s.reg_setReg_sp v) htop, setReg_sp_succ_raises_sp htop, by simp,
      frame_mono_regs (frame_advance frame_popped) (by simp)⟩
  case topR7 =>
    rintro rfl htop
    exact pop_raises_of_top ha hsp hv (s.reg_setReg_sp v) htop

/-- Settles O24. The return address is checked before SP moves, and the target is read after, so for R7 it is the
decremented SP. -/
theorem callPushesTheReturnAddress : Obligations.CallPushesTheReturnAddress := by
  intro s a
  refine ⟨rfl, fun hpc => ?range, fun hpc => ⟨fun hn => ?undefinedSp, fun hsp => ?zero, fun sp hsp h0 =>
    ⟨fun ha7 ha hn => ?undefinedOperand, fun v hv => ?completes⟩⟩⟩
  case range => exact raises_of_error (callHandler_error_iff.mpr (.inl ⟨by omega, rfl⟩))
  case undefinedSp =>
    exact raises_of_error (callHandler_error_iff.mpr (.inr ⟨by omega, .inl (decSP_error_of_undefined hn)⟩))
  case zero => exact raises_of_error (callHandler_error_iff.mpr (.inr ⟨by omega, .inl (decSP_error_of_zero hsp)⟩))
  case undefinedOperand =>
    exact raises_of_error (callHandler_error_iff.mpr
      (.inr ⟨by omega, .inr ⟨sp, hsp, h0, readReg_setReg_sp_error ha7 ha hn⟩⟩))
  case completes =>
    have hread : (s.setReg 7 (sp - 1)).reg a = some v := (s.reg_setReg (sp - 1) (by decide) a).trans hv
    exact ⟨_, exec_call_eq hpc hsp h0 hread, setReg_sp_pred_lowers_sp h0,
      ⟨_, readMem_pushByte h0, returnAddress_toNat (by omega)⟩, target_toNat v, frame_jumpTo (frame_pushByte h0)⟩

/-- Settles O25: RET is a pop whose byte goes to the PC. -/
theorem retPopsThePc : Obligations.RetPopsThePc := by
  intro s
  refine ⟨rfl, fun hn => ?undefinedSp, fun sp hsp => ⟨fun hn => ?undefinedCell, fun v hv =>
    ⟨fun htop => ?top, fun htop => ?completes⟩⟩⟩
  case undefinedSp => exact raises_of_error (retHandler_error_iff.mpr (.inl (readTop_error_of_undefined_sp hn)))
  case undefinedCell =>
    exact raises_of_error (retHandler_error_iff.mpr (.inl (readTop_error_of_undefined_cell hsp hn)))
  case top =>
    exact raises_of_error (retHandler_error_iff.mpr
      (.inr ⟨v, readTop_ok_iff.mpr ⟨sp, hsp, hv⟩, incSP_error_of_top hsp htop⟩))
  case completes =>
    exact ⟨_, exec_ret_eq hsp hv htop, target_toNat v, setReg_sp_succ_raises_sp htop, frame_jumpTo frame_setReg⟩

/-! ### Laws of the stack (rule R92) -/

/-- Settles O41. The state before the POP holds SP - 1 in SP and the pushed byte in its cell
(`ready_to_pop_pushByte`), and POP's increment undoes PUSH's decrement. -/
theorem pushThenPopRestores : Obligations.PushThenPopRestores := by
  intro s t u a b sp v ha7 hb7 hb hsp h0 hv hpush hkeep hcell
  have hexec := exec_push_eq hsp h0 ((s.reg_setReg_other (sp - 1) ha7).trans hv)
  cases hpush.symm.trans hexec
  obtain ⟨husp, hread, htop⟩ := ready_to_pop_pushByte h0 hkeep hcell
  refine ⟨_, exec_pop_eq hb husp hread (setReg_keeps_sp hb7 husp) htop, reg_popped hb7 hb, ?_, by simp⟩
  rw [BitVec.sub_add_cancel]
  exact State.reg_setReg_sp _ sp

/-- Settles O42. A CALL that leaves the block running raised no fault, so it pushed its return address, and RET pops
it. -/
theorem callThenRetReturns : Obligations.CallThenRetReturns := by
  intro s t u a sp hsp hcall _ hrun hkeep hcell
  obtain hk | ⟨c, _, rfl⟩ := exec_next_iff.mp hcall
  · obtain ⟨hpc, sp', v, hsp', h0, _, rfl⟩ := callHandler_ok_iff.mp hk
    obtain rfl : sp = sp' := Option.some.inj (hsp.symm.trans hsp')
    obtain ⟨husp, hread, htop⟩ := ready_to_pop_pushByte h0 hkeep hcell
    refine ⟨_, exec_ret_eq husp hread htop, (target_toNat _).trans (returnAddress_toNat hpc), ?_, by simp⟩
    rw [BitVec.sub_add_cancel]
    exact State.reg_setReg_sp _ sp
  · cases hrun

/-- Settles O43: SP in the effects of the four stack instructions. -/
theorem stackDepthMovesByOne : Obligations.StackDepthMovesByOne := by
  intro s t i sp hc hsp
  have he := effect_of_completes hc
  have hsame {sp' : Byte} (hsp' : s.reg 7 = some sp') : sp = sp' := Option.some.inj (hsp.symm.trans hsp')
  refine ⟨?lowers, ?raises⟩
  case lowers =>
    rintro a (rfl | rfl)
    · cases he with
      | push hsp' h0 _ => obtain rfl := hsame hsp'; exact setReg_sp_pred_lowers_sp h0
    · cases he with
      | call _ hsp' h0 _ => obtain rfl := hsame hsp'; exact setReg_sp_pred_lowers_sp h0
  case raises =>
    rintro a (rfl | ⟨rfl, ha7⟩)
    · cases he with
      | ret hsp' _ htop => obtain rfl := hsame hsp'; exact setReg_sp_succ_raises_sp htop
    · cases he with
      | pop _ _ _ hsp' htop =>
        obtain rfl := Option.some.inj ((setReg_keeps_sp ha7 hsp).symm.trans hsp')
        exact setReg_sp_succ_raises_sp htop

/-! ### LDI, PRN and HALT -/

section
variable {s : State} {a imm v : Byte}

theorem exec_ldi_eq (ha : a.toNat < 8) : exec (.ldi a imm) s = .next ((s.setReg a imm).advance 3) :=
  exec_of_ok (ldiHandler_ok_iff.mpr ⟨ha, rfl⟩)

theorem exec_prn_eq (hv : s.reg a = some v) : exec (.prn a) s = .next ((s.emit v).advance 2) :=
  exec_of_ok (prnHandler_ok_iff.mpr ⟨v, hv, rfl⟩)

end

/-- Settles O20: LDI writes its register without reading it. -/
theorem ldiLoadsTheImmediate : Obligations.LdiLoadsTheImmediate :=
  fun s _ imm => ⟨rfl, fun ha =>
    ⟨_, exec_ldi_eq ha, s.reg_setReg_same imm ha, by simp, AluRules.frame_setReg_advance⟩⟩

/-- Settles O21: PRN reads its register before it emits. -/
theorem prnEmitsTheRegister : Obligations.PrnEmitsTheRegister :=
  fun _ _ => ⟨rfl, fun _ => exec_prn_eq, fun ha hn =>
    raises_of_error (prnHandler_error_iff.mpr (readReg_error_iff.mpr (.inr ⟨rfl, ha, hn⟩)))⟩

/-- Settles O44: PRN finds the immediate in the register, and LDI has emitted nothing. -/
theorem ldiThenPrnEmitsTheImmediate : Obligations.LdiThenPrnEmitsTheImmediate :=
  fun s _ imm ha => ⟨_, _, exec_ldi_eq ha, exec_prn_eq (s.reg_setReg_same imm ha), by simp⟩

/-- Settles O26. HALT cannot fault, and in status `Halted` there is no step (`step_next_iff_running`). -/
theorem haltStopsTheRun : Obligations.HaltStopsTheRun := by
  refine ⟨rfl, fun s => ⟨_, rfl, rfl, fun hpc => ?_, ?_⟩⟩
  · exact pc_add_length_toNat (i := .halt) (Nat.succ_le_succ hpc)
  · rw [step_next_iff_running]
    nofun

end Sys2Proof.Proofs.RegisterStackRules
end

section
/-! Proofs of the statements about the jumps (43_control_flow.md). -/

namespace Sys2Proof.Proofs.ControlFlowRules

open Sys2Proof Sys2Proof.Machine

/-! ### What the jumps answer -/

section
variable {s : State} {a : Byte}

theorem exec_jmp_eq {v : Byte} (hv : s.reg a = some v) : exec (.jmp a) s = .next (s.jumpTo v) :=
  exec_of_ok (jumpHandler_ok_iff.mpr ⟨v, hv, rfl⟩)

theorem readReg_of_undefined (ha : a.toNat < 8) (hn : s.reg a = none) :
    readReg s a = .error (.undefinedValue (.register a)) :=
  readReg_error_iff.mpr (.inr ⟨rfl, ha, hn⟩)

/-- JEQ and JNE at once (rules R94, R95): a jump when E is `want`, else `pc + 2` without a read of the register; the flag
is read first, so an undefined E faults whatever the register holds. -/
theorem conditionalJump_spec {i : Instr} {want : Bool} (hi : handler i s = branchHandler want a s) :
    (∀ v, s.flags.E = some want → s.reg a = some v → exec i s = .next (s.jumpTo v)) ∧
    (s.flags.E = some (!want) → exec i s = .next (s.advance 2)) ∧
    (s.flags.E = none → Raises i s (.undefinedValue (.flag .E))) ∧
    (s.flags.E = some want → a.toNat < 8 → s.reg a = none → Raises i s (.undefinedValue (.register a))) := by
  refine ⟨fun v hE hv => ?taken, fun hE => ?notTaken, fun hE => ?undefinedFlag, fun hE ha hn => ?undefinedTarget⟩
  case taken => exact exec_of_ok (hi.trans (branchHandler_ok_iff.mpr (.inl ⟨hE, v, hv, rfl⟩)))
  case notTaken => exact exec_of_ok (hi.trans (branchHandler_ok_iff.mpr (.inr ⟨hE, rfl⟩)))
  case undefinedFlag => exact raises_of_error (hi.trans (branchHandler_error_iff.mpr (.inl ⟨hE, rfl⟩)))
  case undefinedTarget =>
    exact raises_of_error (hi.trans (branchHandler_error_iff.mpr (.inr ⟨hE, readReg_of_undefined ha hn⟩)))

end

/-! ### The statements -/

/-- Settles O27: JMP reads its register and no flag. -/
theorem jmpJumpsThroughTheRegister : Obligations.JmpJumpsThroughTheRegister :=
  fun _ _ => ⟨rfl, fun _ => exec_jmp_eq, fun ha hn =>
    raises_of_error (jumpHandler_error_iff.mpr (readReg_of_undefined ha hn))⟩

/-- Settles O28: JEQ is the conditional jump that wants E set. -/
theorem jeqJumpsWhenEIsSet : Obligations.JeqJumpsWhenEIsSet :=
  fun _ _ => ⟨rfl, conditionalJump_spec (want := true) rfl⟩

/-- Settles O29: JNE is the conditional jump that wants E clear. -/
theorem jneJumpsWhenEIsClear : Obligations.JneJumpsWhenEIsClear :=
  fun _ _ => ⟨rfl, conditionalJump_spec (want := false) rfl⟩

/-- Settles O30: by O28 and O29, the value of E that one of the two jumps on is the one the other falls through on. -/
theorem exactlyOneOfJeqAndJneJumps : Obligations.ExactlyOneOfJeqAndJneJumps := by
  intro s a v e hE hv
  obtain ⟨_, hjeqTaken, hjeqNotTaken, _⟩ := jeqJumpsWhenEIsSet s a
  obtain ⟨_, hjneTaken, hjneNotTaken, _⟩ := jneJumpsWhenEIsClear s a
  cases e with
  | true => exact ⟨hjeqTaken v hE hv, hjneNotTaken hE⟩
  | false => exact ⟨hjeqNotTaken hE, hjneTaken v hE hv⟩

end Sys2Proof.Proofs.ControlFlowRules
end

section
/-! Proofs of the statements about the exceptions (60_exceptions.md). -/

namespace Sys2Proof.Proofs.ExceptionRules

open Sys2Proof Sys2Proof.Machine Sys2Proof.Proofs.StateRules Sys2Proof.Proofs.DispatchRules

/-! ### Where the fault of a step comes from -/

section
variable {s t : State} {c : FaultCause} {x : Int}

/-- A step that ends in `Faulted` took the fault it records, in fetch and decode or in the fetched instruction's handler:
a completed instruction leaves the block running or halted. -/
theorem faulting_step {r : FaultRecord} (h : step s = .next t) (hf : t.status = .faulted r) :
    t = takeFault r.cause s ∧ r.pc = s.pc ∧
      (fetchInstr s = .error r.cause ∨ ∃ i, fetchInstr s = .ok i ∧ handler i s = .error r.cause) := by
  obtain ⟨c, rfl, hc⟩ | ⟨i, _, he⟩ := step_effect h
  · cases hf
    exact ⟨rfl, rfl, hc⟩
  · have hr : s.status = .running := step_next_iff_running.mp ⟨t, h⟩
    rw [he.status_eq, hr] at hf
    split at hf <;> cases hf

theorem stepRaises_cases (h : StepRaises s c) :
    fetchInstr s = .error c ∨ ∃ i, fetchInstr s = .ok i ∧ handler i s = .error c := by
  obtain ⟨_, _, hc⟩ := faulting_step h rfl
  exact hc

/-- Decoding one operation fails on the read of an operand byte that the table gives it, or rejects what it read
(rules R65, R66). -/
theorem decodeOp_error_within_operands {ε : Type} {read : Nat → Except ε Byte} {reject : Reject → ε} {o : Op} {e : ε}
    (h : decodeOp read reject o = .error e) :
    (∃ n, 1 ≤ n ∧ n ≤ o.operandCount ∧ read n = .error e) ∨ ∃ r, e = reject r := by
  cases o
  case halt | ret => cases h
  case push | pop | prn | call | jmp | jeq | jne =>
    obtain h | ⟨_, _, _, rfl⟩ := decodeR_error_iff.mp h
    · exact .inl ⟨1, le_rfl, le_rfl, h⟩
    · exact .inr ⟨_, rfl⟩
  case ldi =>
    obtain h | ⟨_, _, h | ⟨_, _, _, rfl⟩⟩ := decodeRI_error_iff.mp h
    · exact .inl ⟨1, le_rfl, one_le_two, h⟩
    · exact .inl ⟨2, one_le_two, le_rfl, h⟩
    · exact .inr ⟨_, rfl⟩
  case add | mul | cmp =>
    obtain h | ⟨_, _, h | ⟨_, _, ⟨_, rfl⟩ | ⟨_, _, rfl⟩⟩⟩ := decodeRR_error_iff.mp h
    · exact .inl ⟨1, le_rfl, one_le_two, h⟩
    · exact .inl ⟨2, one_le_two, le_rfl, h⟩
    · exact .inr ⟨_, rfl⟩
    · exact .inr ⟨_, rfl⟩

/-- Fetch and decode fault on the read of the opcode byte, on the read of an operand byte of the operation found there,
or by a rejection of the decoder. -/
theorem fetchInstr_error_cases (h : fetchInstr s = .error c) :
    fetchByte s 0 = .error c ∨
    (∃ (o : Op) (n : Nat), fetchByte s 0 = .ok o.opcode ∧ 1 ≤ n ∧ n ≤ o.operandCount ∧ fetchByte s n = .error c) ∨
    ∃ r, c = rejectFault r := by
  obtain h | ⟨b, _, _, rfl⟩ | ⟨o, h0, h⟩ := decodeFrom_error_iff.mp h
  · exact .inl h
  · exact .inr (.inr ⟨_, rfl⟩)
  · obtain ⟨n, h1, hn, h⟩ | hr := decodeOp_error_within_operands h
    · exact .inr (.inl ⟨o, n, h0, h1, hn, h⟩)
    · exact .inr (.inr hr)

/-! ### The sources of `AddressOutOfRange` (rule R102) -/

theorem fetchByte_error_address {n : Nat} (h : fetchByte s n = .error (.addressOutOfRange x)) :
    256 ≤ s.pc.toNat + n ∧ x = (s.pc.toNat : Int) + n := by
  obtain ⟨hx, hr⟩ | ⟨hx, _⟩ := readMem_error_iff.mp h
  · cases hx
    exact ⟨by omega, rfl⟩
  · cases hx

theorem readReg_error_ne_address {a : Byte} : readReg s a ≠ .error (.addressOutOfRange x) := by
  intro h
  obtain ⟨hx, _⟩ | ⟨hx, _⟩ := readReg_error_iff.mp h <;> cases hx

theorem readTop_error_ne_address : readTop s ≠ .error (.addressOutOfRange x) := by
  intro h
  obtain ⟨hx, _⟩ | ⟨_, _, _, hx⟩ := readTop_error_iff.mp h <;> cases hx

theorem decSP_error_address (h : decSP s = .error (.addressOutOfRange x)) : s.reg 7 = some 0 ∧ x = -1 := by
  obtain ⟨hx, _⟩ | ⟨hx, sp, hsp, h0⟩ := decSP_error_iff.mp h
  · cases hx
  · cases hx
    obtain rfl : sp = 0 := BitVec.eq_of_toNat_eq h0
    exact ⟨hsp, rfl⟩

theorem incSP_error_address (h : incSP s = .error (.addressOutOfRange x)) : s.reg 7 = some 255 ∧ x = 256 := by
  obtain ⟨hx, _⟩ | ⟨hx, sp, hsp, htop⟩ := incSP_error_iff.mp h
  · cases hx
  · cases hx
    obtain rfl : sp = 255 := BitVec.eq_of_toNat_eq htop
    exact ⟨hsp, rfl⟩

section
variable {a b : Byte}

theorem aluHandler_error_ne_address {clear : Bool} {op : AluOp} (hop : op = .add ∨ op = .mul ∨ op = .cmp) :
    aluHandler clear op a b s ≠ .error (.addressOutOfRange x) := by
  intro h
  obtain h | ⟨_, _, h⟩ := (aluHandler_error_iff hop).mp h <;> exact readReg_error_ne_address h

theorem branchHandler_error_ne_address {want : Bool} :
    branchHandler want a s ≠ .error (.addressOutOfRange x) := by
  intro h
  obtain ⟨_, hx⟩ | ⟨_, h⟩ := branchHandler_error_iff.mp h
  · cases hx
  · exact readReg_error_ne_address h

theorem pushHandler_error_address (h : pushHandler a s = .error (.addressOutOfRange x)) :
    s.reg 7 = some 0 ∧ x = -1 := by
  obtain h | ⟨_, _, _, h⟩ := pushHandler_error_iff.mp h
  · exact decSP_error_address h
  · exact absurd h readReg_error_ne_address

/-- The new SP of POP is past 255: SP was at 255, or POP R7 took 255 from the stack (rule R88). -/
theorem popHandler_error_address (h : popHandler a s = .error (.addressOutOfRange x)) :
    x = 256 ∧ ((a ≠ 7 ∧ s.reg 7 = some 255) ∨
      (a = 7 ∧ ∃ sp, s.reg 7 = some sp ∧ s.mem.read sp.toNat = some 255)) := by
  obtain h | ⟨v, hv, h | ⟨_, h⟩⟩ := popHandler_error_iff.mp h
  · exact absurd h readTop_error_ne_address
  · obtain ⟨hx, _⟩ := writeReg_error_iff.mp h
    cases hx
  · obtain ⟨hsp', rfl⟩ := incSP_error_address h
    refine ⟨rfl, ?_⟩
    by_cases ha : a = 7
    · subst ha
      obtain rfl : v = 255 := Option.some.inj ((s.reg_setReg_sp v).symm.trans hsp')
      exact .inr ⟨rfl, readTop_ok_iff.mp hv⟩
    · exact .inl ⟨ha, (s.reg_setReg_other v (Ne.symm ha)).symm.trans hsp'⟩

theorem callHandler_error_address (h : callHandler a s = .error (.addressOutOfRange x)) :
    (255 < s.pc.toNat + 2 ∧ x = (s.pc.toNat : Int) + 2) ∨ (s.reg 7 = some 0 ∧ x = -1) := by
  obtain ⟨hpc, hx⟩ | ⟨_, h | ⟨_, _, _, h⟩⟩ := callHandler_error_iff.mp h
  · cases hx
    exact .inl ⟨hpc, rfl⟩
  · exact .inr (decSP_error_address h)
  · exact absurd h readReg_error_ne_address

theorem retHandler_error_address (h : retHandler s = .error (.addressOutOfRange x)) :
    s.reg 7 = some 255 ∧ x = 256 := by
  obtain h | ⟨_, _, h⟩ := retHandler_error_iff.mp h
  · exact absurd h readTop_error_ne_address
  · exact incSP_error_address h

end

/-- Only the four stack instructions raise `AddressOutOfRange`; a CALL that was fetched whole stands at 254 or below. -/
theorem handler_error_address {i : Instr} (hlen : s.pc.toNat + i.length ≤ 256)
    (h : handler i s = .error (.addressOutOfRange x)) :
    (∃ a, (i = .push a ∨ i = .call a) ∧ s.reg 7 = some 0 ∧ x = -1) ∨
    (i = .ret ∧ s.reg 7 = some 255 ∧ x = 256) ∨
    (∃ a, i = .pop a ∧ x = 256 ∧ ((a ≠ 7 ∧ s.reg 7 = some 255) ∨
      (a = 7 ∧ ∃ sp, s.reg 7 = some sp ∧ s.mem.read sp.toNat = some 255))) ∨
    (∃ a, i = .call a ∧ s.pc.toNat = 254 ∧ x = 256) := by
  cases i with
  | push a => exact .inl ⟨a, .inl rfl, pushHandler_error_address h⟩
  | ret => exact .inr (.inl ⟨rfl, retHandler_error_address h⟩)
  | pop a => exact .inr (.inr (.inl ⟨a, rfl, popHandler_error_address h⟩))
  | call a =>
    obtain ⟨hpc, hx⟩ | hsp := callHandler_error_address h
    · have : s.pc.toNat + 2 ≤ 256 := hlen
      exact .inr (.inr (.inr ⟨a, rfl, by omega, by omega⟩))
    · exact .inl ⟨a, .inr rfl, hsp⟩
  | halt => cases h
  | prn a => exact absurd (prnHandler_error_iff.mp h) readReg_error_ne_address
  | jmp a => exact absurd (jumpHandler_error_iff.mp h) readReg_error_ne_address
  | jeq a | jne a => exact absurd h branchHandler_error_ne_address
  | ldi a imm =>
    obtain ⟨hx, _⟩ := ldiHandler_error_iff.mp h
    cases hx
  | add a b => exact absurd h (aluHandler_error_ne_address (.inl rfl))
  | mul a b => exact absurd h (aluHandler_error_ne_address (.inr (.inl rfl)))
  | cmp a b => exact absurd h (aluHandler_error_ne_address (.inr (.inr rfl)))

/-- Fetch raises `AddressOutOfRange` at the opcode byte or at an operand byte past 255, with that address (rules R63,
R65). -/
theorem fetchInstr_error_address (h : fetchInstr s = .error (.addressOutOfRange x)) :
    (256 ≤ s.pc.toNat ∧ x = s.pc.toNat) ∨
    ∃ (o : Op) (n : Nat), readMem s s.pc.toNat = .ok o.opcode ∧ 1 ≤ n ∧ n ≤ o.operandCount ∧
      256 ≤ s.pc.toNat + n ∧ x = (s.pc.toNat : Int) + n := by
  obtain h | ⟨o, n, h0, h1, hn, h⟩ | ⟨r, hr⟩ := fetchInstr_error_cases h
  · exact .inl (by simpa using fetchByte_error_address h)
  · exact .inr ⟨o, n, h0, h1, hn, fetchByte_error_address h⟩
  · cases r <;> cases hr

/-! ### No source of `UnsupportedALUOperation` (rule R80) -/

theorem fetchInstr_error_ne_unsupported {op : AluOp} : fetchInstr s ≠ .error (.unsupportedALUOperation op) := by
  intro h
  have hread (n : Nat) : fetchByte s n ≠ .error (.unsupportedALUOperation op) := by
    intro h
    obtain ⟨hx, _⟩ | ⟨hx, _⟩ := readMem_error_iff.mp h <;> cases hx
  obtain h | ⟨_, n, _, _, _, h⟩ | ⟨r, hr⟩ := fetchInstr_error_cases h
  · exact hread 0 h
  · exact hread n h
  · cases r <;> cases hr

/-- A handler that runs where its instruction was fetched raises legal faults only, and this one is not legal. -/
theorem handler_error_ne_unsupported {i : Instr} {op : AluOp} (hlen : s.pc.toNat + i.length ≤ 256) :
    handler i s ≠ .error (.unsupportedALUOperation op) :=
  fun h => nomatch handler_error_legal hlen h

end

/-! ### The statements -/

/-- Settles O12: the next state is the old one with the fault taken (`faulting_step`), and `Faulted` has no step. -/
theorem faultingStepCommitsNothing : Obligations.FaultingStepCommitsNothing := by
  intro s t r hstep hf
  obtain ⟨rfl, hpc, _⟩ := faulting_step hstep hf
  refine ⟨hpc, rfl, rfl, rfl, rfl, rfl, ?_⟩
  rw [step_next_iff_running]
  nofun

/-- Settles O13. -/
theorem faultCodes : Obligations.FaultCodes := fun _ _ _ _ _ => ⟨rfl, rfl, rfl, rfl, rfl⟩

/-- Settles O14: the fault is one of fetch, at distance 0, 1 or 2 from the PC, or one of a stack instruction. -/
theorem addressFaultsOnlyInTheListedCases : Obligations.AddressFaultsOnlyInTheListedCases := by
  intro s x h
  obtain h | ⟨i, hi, h⟩ := stepRaises_cases h
  · obtain hpc | ⟨o, n, h0, h1, hn, hr⟩ := fetchInstr_error_address h
    · exact .inl hpc
    · have hle := EncodingRules.operandCount_le_two o
      obtain rfl | rfl : n = 1 ∨ n = 2 := by omega
      · exact .inr (.inl ⟨o, h0, .inl ⟨hn, hr⟩⟩)
      · exact .inr (.inl ⟨o, h0, .inr ⟨hn, hr⟩⟩)
  · obtain ⟨_, hlen, _⟩ := fetchInstr_ok hi
    simp only [hi, Except.ok.injEq]
    exact .inr (.inr (handler_error_address hlen h))

/-- Settles O15. Neither fetch nor a handler raises this fault; the ALU does on an unrecognised name, before it reads an
operand (log entry 9). -/
theorem noProgramReachesUnsupportedAluOperation : Obligations.NoProgramReachesUnsupportedAluOperation := by
  refine ⟨fun s op h => ?_, fun _ => rfl, fun _ _ _ _ _ => rfl⟩
  obtain h | ⟨i, hi, h⟩ := stepRaises_cases h
  · exact fetchInstr_error_ne_unsupported h
  · obtain ⟨_, hlen, _⟩ := fetchInstr_ok hi
    exact handler_error_ne_unsupported hlen h

end Sys2Proof.Proofs.ExceptionRules
end

section
/-! Proof of the statement about the one reset state of the host's interface (log entry 1). -/

namespace Sys2Proof.Proofs.HostReset

open Sys2Proof Sys2Proof.Machine

/-- After the family's reset every register below SP holds the presumed value, whatever `SP_INIT` is. -/
theorem resetWith_reg_of_lt (sp : Byte) {r : Byte} (hr : r.toNat < 7) :
    (State.resetWith sp).reg r = some Config.resetReg := by
  have hr8 : r.toNat < 8 := by omega
  calc (State.resetWith sp).reg r = ((Vector.replicate 7 (some Config.resetReg)).push (some sp))[r.toNat] :=
        dif_pos hr8
    _ = (Vector.replicate 7 (some Config.resetReg))[r.toNat] := Vector.getElem_push_lt hr
    _ = some Config.resetReg := Vector.getElem_replicate hr

/-- After the family's reset SP holds `SP_INIT`. -/
theorem resetWith_reg_sp (sp : Byte) : (State.resetWith sp).reg 7 = some sp :=
  (Vector.getElem_push_eq : ((Vector.replicate 7 (some Config.resetReg)).push (some sp))[7] = some sp)

/-- Settles O48: `State.reset` is `State.resetWith` at the presumed values of `Config`. -/
theorem hostResetHoldsTheLoggedValues : Obligations.HostResetHoldsTheLoggedValues :=
  ⟨rfl, rfl, rfl, fun _ => rfl, fun _ hr => resetWith_reg_of_lt Config.spInit hr,
    resetWith_reg_sp Config.spInit, rfl⟩

end Sys2Proof.Proofs.HostReset
end
